-- ==== Sys2Proof/Word.lean ====
section
/-! DEFINITION. The values of 00_scope.md rule R8: bytes, 15-bit sequence numbers, and the two words of
30_encoding.md (REQW, rule R70, and CW, rule R60). Every value is unsigned (rule R8). -/

namespace Sys2Proof

/-- "Every byte is an unsigned 8-bit value 0..255" (R8). -/
abbrev Byte := BitVec 8

/-- "Every sequence number is an unsigned 15-bit value 0..32767" (R8). -/
abbrev Seq := BitVec 15

/-- The 48-bit request word REQW (R70). -/
abbrev ReqWord := BitVec 48

/-- The control field of a frame as one 32-bit word, `{c4, c3, c2, c1}` (R60). -/
abbrev ControlWord := BitVec 32

end Sys2Proof
end

