-- ==== Sys2Proof/Config.lean ====
section
/-! DEFINITION. The constants and the one parameter of 00_scope.md rule R6, and the range of that parameter
(rule R7). -/

namespace Sys2Proof

/-- The configuration of one codec: MAX_PAYLOAD, "the single parameter" (R23), "OPEN as a model argument" (R6).
It is a natural number so that a value outside 0..249 can be given and refused (R7). -/
structure Config where
  maxPayload : Nat
  deriving DecidableEq, Repr

/-- START_MARKER (R6). -/
def Config.startMarker : Byte := 0x68#8

/-- HDR_BYTES (R6). -/
def Config.hdrBytes : Nat := 6

/-- CTRL_BYTES (R6). -/
def Config.ctrlBytes : Nat := 4

/-- APDU_MAX (R6). -/
def Config.apduMax : Nat := 255

/-- SEQ_BITS (R6). -/
def Config.seqBits : Nat := 15

/-- SEQ_MOD (R6): "used by the session, not by the block". -/
def Config.seqMod : Nat := 32768

/-- IBUF_BYTES and OBUF_BYTES (R6): each buffer has the byte addresses 0..254 (R40). -/
def Config.bufferBytes : Nat := 255

/-- The default value of MAX_PAYLOAD (R6). -/
def Config.defaultMaxPayload : Nat := 249

/-- The largest legal MAX_PAYLOAD (R7): 255 − 6. -/
def Config.maxPayloadBound : Nat := 249

/-- `0 <= MAX_PAYLOAD <= 249` (R7). -/
def Config.legal (c : Config) : Bool := c.maxPayload ≤ Config.maxPayloadBound

end Sys2Proof
end

