-- ==== Sys2Proof/Syntax.lean ====
section
/-! DEFINITION. The instructions: one constructor per row of spec/opcode_table.json, with the fields the row's
encoding gives it (30_encoding.md rules R62 to R64, R70 to R72). -/

namespace Sys2Proof

/-- The rows of the opcode table. The first four are requests (REQW, level "operation"); an operation carries the
request fields it uses (R21). The others are values of the control field CW: the three frame classes (level
"class") and, under U_FRAME, the seven function rows (level "function", R72). A frame row carries EVERY bit of CW
that its row does not fix, the ignored ones included, because PARSE hands the header on verbatim (R102). -/
inductive Instr where
  /-- PARSE (R100): `ilen` is the APDU length N. -/
  | parse (ilen : Byte)
  /-- BUILD_I (R130): `ilen` is the payload length L. -/
  | buildI (ssn rsn : Seq) (ilen : Byte)
  /-- BUILD_S (R132). -/
  | buildS (rsn : Seq)
  /-- BUILD_U (R133). -/
  | buildU (fbits : Byte)
  /-- I_FRAME (R62, R104): `ignored` is CW bit 16, c3 bit 0. -/
  | iFrame (ssn rsn : Seq) (ignored : BitVec 1)
  /-- S_FRAME (R63, R105): `fixedC1` is c1[7:2], `fixedC2` is c2, `ignored` is c3 bit 0. -/
  | sFrame (fixedC1 : BitVec 6) (fixedC2 : Byte) (ignored : BitVec 1) (rsn : Seq)
  /-- U_FRAME (R64, R106): `func` is c1[7:2], `fixed` is `{c4, c3, c2}`. -/
  | uFrame (func : BitVec 6) (fixed : BitVec 24)
  /-- U_StartActivate (R160): c1 = 0x07. -/
  | uStartActivate (fixed : BitVec 24)
  /-- U_StartConfirm (R161): c1 = 0x0B. -/
  | uStartConfirm (fixed : BitVec 24)
  /-- U_StopActivate (R162): c1 = 0x13. -/
  | uStopActivate (fixed : BitVec 24)
  /-- U_StopConfirm (R163): c1 = 0x23. -/
  | uStopConfirm (fixed : BitVec 24)
  /-- U_TestActivate (R164): c1 = 0x43. -/
  | uTestActivate (fixed : BitVec 24)
  /-- U_TestConfirm (R165): c1 = 0x83. -/
  | uTestConfirm (fixed : BitVec 24)
  /-- U_Unknown (R166): any other function bits under the tag 11. -/
  | uUnknown (func : BitVec 6) (fixed : BitVec 24)
  deriving DecidableEq, Repr

/-- The level of a row of the opcode table, its "level" entry: the step of the decoder (R72) that finds it. -/
inductive Level where
  | operation
  | frameClass
  | function
  deriving DecidableEq, Repr

/-- An encoded instruction: a word of one of the two decode spaces of 30_encoding.md. -/
inductive Encoded where
  /-- A request word (R70). -/
  | reqw (w : ReqWord)
  /-- A control field (R60). -/
  | cw (w : ControlWord)
  deriving DecidableEq, Repr

/-- The level of an instruction's row. -/
def Instr.level : Instr → Level
  | .parse _ => .operation
  | .buildI _ _ _ => .operation
  | .buildS _ => .operation
  | .buildU _ => .operation
  | .iFrame _ _ _ => .frameClass
  | .sFrame _ _ _ _ => .frameClass
  | .uFrame _ _ => .frameClass
  | .uStartActivate _ => .function
  | .uStartConfirm _ => .function
  | .uStopActivate _ => .function
  | .uStopConfirm _ => .function
  | .uTestActivate _ => .function
  | .uTestConfirm _ => .function
  | .uUnknown _ _ => .function

end Sys2Proof
end

