-- ==== Sys2Proof/WellFormed.lean ====
section
/-! DEFINITION. Which instruction terms are instructions of the opcode table. Every operand has exactly the width
of its field, so the one check is the residual one of U_Unknown (30_encoding.md rule R72: "and none of the six rows
above"; 42_control_functions.md rule R166). -/

namespace Sys2Proof

/-- The six function values of rule R78, as c1[7:2]: "those with exactly one bit set". -/
def namedFunctionBits : List (BitVec 6) :=
  [0b000001#6, 0b000010#6, 0b000100#6, 0b001000#6, 0b010000#6, 0b100000#6]

/-- The term stands for words of its row. -/
def Instr.wellFormed : Instr → Bool
  | .parse _ => true
  | .buildI _ _ _ => true
  | .buildS _ => true
  | .buildU _ => true
  | .iFrame _ _ _ => true
  | .sFrame _ _ _ _ => true
  | .uFrame _ _ => true
  | .uStartActivate _ => true
  | .uStartConfirm _ => true
  | .uStopActivate _ => true
  | .uStopConfirm _ => true
  | .uTestActivate _ => true
  | .uTestConfirm _ => true
  | .uUnknown func _ => !namedFunctionBits.contains func

end Sys2Proof
end

