-- ==== Sys2Proof/Decode.lean ====
section
/-! DEFINITION. The decoder of 30_encoding.md rule R72 (requests by op; control fields by class, then by function),
the assembly and the split of sequence numbers and function codes (rules R65 to R67), and the encoder written from
the same tables (rules R62 to R64, R70). -/

namespace Sys2Proof

/-! ### Operand assembly -/

/-- The value `v` at bit `lo` of a word of the given width; the concatenations of R8 are `|||` of such fields. -/
def field (width lo : Nat) {n : Nat} (v : BitVec n) : BitVec width := BitVec.setWidth width v <<< lo

/-- Decoding a sequence number (R65): `(zext_16(low) >> 1) | (zext_16(high) << 7)`, 15 bits. -/
def seqOf (low high : Byte) : Seq :=
  BitVec.setWidth 15 ((BitVec.setWidth 16 low >>> 1) ||| (BitVec.setWidth 16 high <<< 7))

/-- The low byte of an encoded sequence number (R66): `trunc_8(zext_16(s) << 1)`. -/
def seqLow (s : Seq) : Byte := BitVec.setWidth 8 (BitVec.setWidth 16 s <<< 1)

/-- The high byte of an encoded sequence number (R66): `trunc_8(zext_16(s) >> 7)`. -/
def seqHigh (s : Seq) : Byte := BitVec.setWidth 8 (BitVec.setWidth 16 s >>> 7)

/-- Decoding a function code (R67): `c1 & 0xFC`. -/
def funcOf (c1 : Byte) : Byte := c1 &&& 0xFC#8

/-- Encoding a function code (R67): `fbits | 0x03`, "forces the class tag". -/
def funcByte (fbits : Byte) : Byte := fbits ||| 0x03#8

/-! ### The control field as a word (R60) -/

/-- `CW = {c4, c3, c2, c1}`. -/
def controlWord (c1 c2 c3 c4 : Byte) : ControlWord :=
  field 32 24 c4 ||| field 32 16 c3 ||| field 32 8 c2 ||| field 32 0 c1

/-- `c1 = CW[7:0]`. -/
def c1Of (w : ControlWord) : Byte := w.extractLsb' 0 8

/-- `c2 = CW[15:8]`. -/
def c2Of (w : ControlWord) : Byte := w.extractLsb' 8 8

/-- `c3 = CW[23:16]`. -/
def c3Of (w : ControlWord) : Byte := w.extractLsb' 16 8

/-- `c4 = CW[31:24]`. -/
def c4Of (w : ControlWord) : Byte := w.extractLsb' 24 8

/-! ### Decoding -/

/-- Why a decoder gives no instruction. -/
inductive DecodeReject where
  /-- The number of bits is neither 48 (REQW) nor 32 (CW). -/
  | unknownWidth (bits : Nat)
  /-- A word of the one decode space was given to the decoder of the other. -/
  | wrongSpace
  /-- A control field with another tag than 11 has no function row (R72). -/
  | notUnnumbered
  /-- An APDU shorter than its 6-byte header has no control field (R101). -/
  | apduTooShort (bytes : Nat)
  deriving DecidableEq, Repr

/-- The first step of the decoder, R71: `op = REQW[1:0]`. "All four values name an operation". -/
def decodeRequest (w : ReqWord) : Instr :=
  let ssn : Seq := w.extractLsb' 2 15
  let rsn : Seq := w.extractLsb' 17 15
  let fbits : Byte := w.extractLsb' 32 8
  let ilen : Byte := w.extractLsb' 40 8
  match (w.extractLsb' 0 2).toNat with
  | 0 => .parse ilen
  | 1 => .buildI ssn rsn ilen
  | 2 => .buildS rsn
  | _ => .buildU fbits

/-- The class row of a control field (R61): c1[0] = 0 is I, c1[1:0] = 01 is S, else U. -/
def decodeClass (w : ControlWord) : Instr :=
  if w.extractLsb' 0 1 = 0#1 then
    .iFrame (seqOf (c1Of w) (c2Of w)) (seqOf (c3Of w) (c4Of w)) (w.extractLsb' 16 1)
  else if w.extractLsb' 0 2 = 0b01#2 then
    .sFrame (w.extractLsb' 2 6) (c2Of w) (w.extractLsb' 16 1) (seqOf (c3Of w) (c4Of w))
  else
    .uFrame (w.extractLsb' 2 6) (w.extractLsb' 8 24)

/-- The function row of a U frame's control field (R72): by equality of the whole byte c1, and U_Unknown "when no
row R160 to R165 matches" (R166). -/
def decodeFunction (w : ControlWord) : Except DecodeReject Instr :=
  if w.extractLsb' 0 2 = 0b11#2 then
    let fixed : BitVec 24 := w.extractLsb' 8 24
    match (c1Of w).toNat with
    | 0x07 => .ok (.uStartActivate fixed)
    | 0x0B => .ok (.uStartConfirm fixed)
    | 0x13 => .ok (.uStopActivate fixed)
    | 0x23 => .ok (.uStopConfirm fixed)
    | 0x43 => .ok (.uTestActivate fixed)
    | 0x83 => .ok (.uTestConfirm fixed)
    | _ => .ok (.uUnknown (w.extractLsb' 2 6) fixed)
  else .error .notUnnumbered

/-- The whole decode of a control field (R72): the class, and for a U frame its function row. -/
def decodeControl (w : ControlWord) : Instr :=
  match decodeFunction w with
  | .ok i => i
  | .error _ => decodeClass w

/-- The decoder of one level of the opcode table. -/
def decodeAt : Level → Encoded → Except DecodeReject Instr
  | .operation, .reqw w => .ok (decodeRequest w)
  | .frameClass, .cw w => .ok (decodeClass w)
  | .function, .cw w => decodeFunction w
  | .operation, .cw _ => .error .wrongSpace
  | .frameClass, .reqw _ => .error .wrongSpace
  | .function, .reqw _ => .error .wrongSpace

/-- The decoder of a word of either space: a request by its op, a control field by class and function (R72). -/
def decode : Encoded → Instr
  | .reqw w => decodeRequest w
  | .cw w => decodeControl w

/-- The word of `nbits` bits whose value is `w`: 48 bits are a REQW, 32 bits a CW (the widths of the opcode
table's rows). -/
def encodedOf (nbits w : Nat) : Except DecodeReject Encoded :=
  if nbits = 48 then .ok (.reqw (BitVec.ofNat 48 w))
  else if nbits = 32 then .ok (.cw (BitVec.ofNat 32 w))
  else .error (.unknownWidth nbits)

/-- The decoder on the bytes of an APDU as they stand on the wire (R43): the row of its control field, whatever
the start marker, the length byte and the payload are (R77). -/
def decodeApdu : List Byte → Except DecodeReject Instr
  | _ :: _ :: c1 :: c2 :: c3 :: c4 :: _ => .ok (decodeControl (controlWord c1 c2 c3 c4))
  | short => .error (.apduTooShort short.length)

/-- The instruction the decoder reads from a word numbered as spec/opcode_table.json numbers it. A control field
with the tag 11 is answered by its function row, the last step of R72 (assumption 11). -/
def decodeTableWord (nbits w : Nat) : Option Instr :=
  match encodedOf nbits w with
  | .ok e => some (decode e)
  | .error _ => none

/-! ### Encoding -/

/-- The request word of R70; the fields an operation does not use are 0 (R70). -/
def requestWord (op : BitVec 2) (ssn rsn : Seq) (fbits ilen : Byte) : ReqWord :=
  field 48 40 ilen ||| field 48 32 fbits ||| field 48 17 rsn ||| field 48 2 ssn ||| field 48 0 op

/-- The control field of an I frame (R62), with the ignored bit c3[0]. -/
def iControl (ssn rsn : Seq) (ignored : BitVec 1) : ControlWord :=
  controlWord (seqLow ssn) (seqHigh ssn) (seqLow rsn ||| field 8 0 ignored) (seqHigh rsn)

/-- The control field of an S frame (R63), with its fixed and ignored bits. -/
def sControl (fixedC1 : BitVec 6) (fixedC2 : Byte) (ignored : BitVec 1) (rsn : Seq) : ControlWord :=
  controlWord (field 8 2 fixedC1 ||| 0b01#8) fixedC2 (seqLow rsn ||| field 8 0 ignored) (seqHigh rsn)

/-- The control field of a U frame (R64): `{c4, c3, c2}`, the function bits and the tag 11. -/
def uControl (func : BitVec 6) (fixed : BitVec 24) : ControlWord :=
  field 32 8 fixed ||| field 32 2 func ||| 0b11#32

/-- The word of an instruction, written from the encoding tables of 30_encoding.md. -/
def Instr.encode : Instr → Encoded
  | .parse ilen => .reqw (requestWord 0b00#2 0#15 0#15 0#8 ilen)
  | .buildI ssn rsn ilen => .reqw (requestWord 0b01#2 ssn rsn 0#8 ilen)
  | .buildS rsn => .reqw (requestWord 0b10#2 0#15 rsn 0#8 0#8)
  | .buildU fbits => .reqw (requestWord 0b11#2 0#15 0#15 fbits 0#8)
  | .iFrame ssn rsn ignored => .cw (iControl ssn rsn ignored)
  | .sFrame fixedC1 fixedC2 ignored rsn => .cw (sControl fixedC1 fixedC2 ignored rsn)
  | .uFrame func fixed => .cw (uControl func fixed)
  | .uStartActivate fixed => .cw (uControl 0b000001#6 fixed)
  | .uStartConfirm fixed => .cw (uControl 0b000010#6 fixed)
  | .uStopActivate fixed => .cw (uControl 0b000100#6 fixed)
  | .uStopConfirm fixed => .cw (uControl 0b001000#6 fixed)
  | .uTestActivate fixed => .cw (uControl 0b010000#6 fixed)
  | .uTestConfirm fixed => .cw (uControl 0b100000#6 fixed)
  | .uUnknown func fixed => .cw (uControl func fixed)

end Sys2Proof
end

