-- ==== Sys2Proof/Machine/State.lean ====
section
/-! DEFINITION. The state of 10_state.md: the configuration (rule R23), the request record (R21), the response
record (R22), the two buffers (20_memory.md rule R40), and where a request stands in its transaction (R50, R51,
R220). The block has no other state (R20, R24 to R28). The reasons a step can stop. -/

namespace Sys2Proof.Machine

/-! ### Memory -/

/-- One byte space (R40): IBUF or OBUF. The listed bytes at rising addresses; an address that is not listed holds
zero. The form `Memory.wf` (Machine/Ops.lean) makes equal contents equal lists. -/
abbrev Memory := List Host.Cell

/-! ### The encoded values of a response (30_encoding.md section 4) -/

/-- `rsp.status` (R73): "0b00 OK, 0b01 ERR_OVERSIZE and 0b10 ERR_SHORT"; 0b11 is reserved. -/
inductive Status where
  | ok
  | errOversize
  | errShort
  /-- "The value 0b11 is reserved and never produced" (R73). -/
  | reserved
  deriving DecidableEq, Repr

/-- `rsp.cls` (R74). -/
inductive FrameClass where
  /-- NONE: "not a successful PARSE". -/
  | noClass
  | information
  | supervisory
  | unnumbered
  deriving DecidableEq, Repr

/-- `rsp.ufn` (R75): which control function a U frame names. -/
inductive ControlFunction where
  /-- NONE: "not a U frame". -/
  | noFunction
  | startActivate
  | startConfirm
  | stopActivate
  | stopConfirm
  | testActivate
  | testConfirm
  | unknown
  deriving DecidableEq, Repr

/-- `rsp.chk` (R76): three diagnostic bits. -/
structure Checks where
  /-- bit 0, START_BAD. -/
  startBad : Bool
  /-- bit 1, LEN_MISMATCH. -/
  lenMismatch : Bool
  /-- bit 2, FIXED_BAD. -/
  fixedBad : Bool
  deriving DecidableEq, Repr

/-! ### The records -/

/-- The first six bytes of an APDU (00_scope.md section 5, R43). -/
structure ControlHeader where
  hstart : Byte
  halen : Byte
  c1 : Byte
  c2 : Byte
  c3 : Byte
  c4 : Byte
  deriving DecidableEq, Repr

/-- The request record (R21) with its input buffer. -/
structure Request where
  op : BitVec 2
  ilen : Byte
  ibuf : Memory
  ssn : Seq
  rsn : Seq
  fbits : Byte
  deriving DecidableEq, Repr

/-- The response record (R22) with its output buffer. -/
structure Response where
  status : Status
  cls : FrameClass
  hstart : Byte
  halen : Byte
  hc1 : Byte
  hc2 : Byte
  hc3 : Byte
  hc4 : Byte
  ssn : Seq
  rsn : Seq
  func : Byte
  ufn : ControlFunction
  chk : Checks
  olen : Byte
  obuf : Memory
  deriving DecidableEq, Repr

/-- One codec. -/
structure State where
  /-- MAX_PAYLOAD: "fixed when the block is instantiated and cannot change between operations" (R23). -/
  config : Config
  /-- The requests the caller has issued and the codec has not accepted, oldest first (R51), each fixed at issue, any
number of them (assumption 19). -/
  issued : List Request
  /-- The request accepted "as one snapshot" (R50) whose response is not published, if there is one. -/
  inFlight : Option Request
  /-- The response the caller can read: "no response exists until the first request after reset has completed"
  (R29). -/
  response : Option Response
  deriving DecidableEq, Repr

/-! ### Stops -/

/-- Why the machine stops with a fault. No run from `State.reset` under a legal configuration reaches one of the
first two. -/
inductive Fault where
  /-- An operation is to be performed and no request is in flight (assumption 7). Raised by every meaning; `step`
  never calls one then. Safe. -/
  | noRequest
  /-- A buffer address above 254, which does not exist (R40; assumption 9). Raised by `memRead` and `memWrite`.
  Safe. -/
  | noSuchAddress (address : Nat)
  /-- The caller reads a response and none exists (R29, R220; assumption 14). Raised by `readResponse` only.
  Safe. -/
  | noResponse
  deriving DecidableEq, Repr

/-- Why the machine gives no meaning. -/
inductive Refusal where
  /-- An instruction without a meaning; no arm of `exec` answers it any more. Safe. -/
  | notModelled (mnemonic : String)
  /-- MAX_PAYLOAD outside 0..249: the model "refuses the configuration and runs no operation" (R7; assumption 3).
  Raised by `step` and by every meaning. Safe. -/
  | illegalMaxPayload
  /-- A response with the status 0b11: a model "must treat it as a broken implementation and refuse it" (R73;
  assumption 14). Raised by `readResponse` only. Safe. -/
  | reservedStatus
  deriving DecidableEq, Repr

/-- The block right after reset (R29, R220), instantiated with the default MAX_PAYLOAD (R6; assumption 2), before
the caller has issued anything. -/
def State.reset : State :=
  { config := { maxPayload := 249 }, issued := [], inFlight := none, response := none }

end Sys2Proof.Machine
end

