-- ==== Sys2Proof/Machine/Ops.lean ====
section
/-! DEFINITION. The operations over the two buffers (20_memory.md), the raising of an error (60_exceptions.md), the
life of a transaction (20_memory.md rules R50 and R51), reset (70_reset_and_hazards.md), and the caller's side of
the interface. -/

namespace Sys2Proof.Machine

/-! ### Buffers -/

/-- The byte at an address; an address that is not listed holds zero. -/
def Memory.read : Memory → Nat → Byte
  | [], _ => 0#8
  | (k, v) :: m, a => if a = k then v else Memory.read m a

/-- The memory after byte `v` is stored at address `a`: sorted, and without an entry that holds zero. -/
def Memory.write : Memory → Nat → Byte → Memory
  | [], a, v => if v = 0#8 then [] else [(a, v)]
  | (k, w) :: m, a, v =>
    if a < k then (if v = 0#8 then (k, w) :: m else (a, v) :: (k, w) :: m)
    else if a = k then (if v = 0#8 then m else (k, v) :: m)
    else (k, w) :: Memory.write m a v

/-- Addresses rise strictly from `lo`, lie in 0..254 (R40), and no entry holds zero. -/
def Memory.wfFrom : Nat → Memory → Bool
  | _, [] => true
  | lo, (k, v) :: m => decide (lo ≤ k) && decide (k < 255) && decide (v ≠ 0#8) && Memory.wfFrom (k + 1) m

/-- The canonical form of a buffer. -/
def Memory.wf (m : Memory) : Bool := Memory.wfFrom 0 m

/-- The buffer whose first bytes are the given ones, the rest zero. -/
def Memory.ofBytesFrom : Nat → List Byte → Memory
  | _, [] => []
  | a, v :: vs => if v = 0#8 then Memory.ofBytesFrom (a + 1) vs else (a, v) :: Memory.ofBytesFrom (a + 1) vs

/-- The buffer that holds the given bytes from address 0 on. -/
def Memory.ofBytes (bytes : List Byte) : Memory := Memory.ofBytesFrom 0 bytes

/-- The `n` bytes from address 0 on. -/
def Memory.bytes (m : Memory) (n : Nat) : List Byte := (List.range n).map m.read

/-- `MemRead(a, 1)` (R10, R40): byte `a` of IBUF, whose addresses are 0..254. -/
def memRead (ibuf : Memory) (a : Nat) : Except Fault Byte :=
  if a < Config.bufferBytes then .ok (ibuf.read a) else .error (.noSuchAddress a)

/-- `MemWrite(a, 1, v)` (R10, R40): byte `v` into byte `a` of OBUF, whose addresses are 0..254. -/
def memWrite (obuf : Memory) (a : Nat) (v : Byte) : Except Fault Memory :=
  if a < Config.bufferBytes then .ok (obuf.write a v) else .error (.noSuchAddress a)

/-- `for i in 0 .. n-1: MemWrite(dst + i, 1, MemRead(src + i, 1))` (R58: payloads are copied verbatim). -/
def copyBytes (ibuf : Memory) (src dst : Nat) : Nat → Memory → Except Fault Memory
  | 0, obuf => .ok obuf
  | n + 1, obuf => do
    let done ← copyBytes ibuf src dst n obuf
    let v ← memRead ibuf (src + n)
    memWrite done (dst + n) v

/-! ### Errors -/

/-- The response every field of which is zero: what a field holds that nothing gives a meaning (R30). -/
def Response.zero : Response :=
  { status := .ok, cls := .noClass, hstart := 0#8, halen := 0#8, hc1 := 0#8, hc2 := 0#8, hc3 := 0#8, hc4 := 0#8,
    ssn := 0#15, rsn := 0#15, func := 0#8, ufn := .noFunction,
    chk := { startBad := false, lenMismatch := false, fixedBad := false }, olen := 0#8, obuf := [] }

/-- The response of an error: "`status` set to the error code and every other field zero" (R203). -/
def Response.error (code : Status) : Response := { Response.zero with status := code }

/-- `raise E()` (R10, R208): the whole effect of an error is its response. There is no saved state, no mode, no
vector, and no return (R208, R209). -/
def raise (code : Status) : Except Fault Response := .ok (Response.error code)

/-! ### The life of a transaction -/

/-- The codec accepts a request: it takes the whole record as one snapshot (R50). -/
def State.accept (s : State) (r : Request) (rest : List Request) : State :=
  { s with issued := rest, inFlight := some r }

/-- The codec publishes a response, the whole record as one snapshot (R50), and holds nothing of the request
(R20). -/
def State.publish (s : State) (rsp : Response) : State :=
  { s with inFlight := none, response := some rsp }

/-- Performing an operation on the request in flight: under a legal configuration (R7) its response is computed
from the request and MAX_PAYLOAD alone (R5) and published (R50). -/
def perform (s : State) (operation : Request → Except Fault Response) : Host.Outcome State Fault Refusal :=
  if s.config.legal then
    match s.inFlight with
    | none => .fault .noRequest
    | some r =>
      match operation r with
      | .ok rsp => .next (s.publish rsp)
      | .error e => .fault e
  else .refused .illegalMaxPayload

/-! ### The caller and reset -/

/-- The caller issues a request (R12, R51). DESIGN CHOICE (assumption 19): from issue on the request waits, record and
IBUF, as it was issued, behind any number of others; only after acceptance is that the spec's own snapshot (R50). -/
def State.issue (s : State) (r : Request) : State := { s with issued := s.issued ++ [r] }

/-- Reset (R220, R221): the request in flight is discarded without a response, no response is readable, MAX_PAYLOAD
keeps its value. Requests the caller has not had accepted are the caller's (assumption 6). -/
def State.applyReset (s : State) : State := { s with inFlight := none, response := none }

/-- The caller reads the response (R24): it stops where none exists (R29) and at a reserved status (R73). -/
def State.readResponse (s : State) : Host.Outcome Response Fault Refusal :=
  match s.response with
  | none => .fault .noResponse
  | some rsp =>
    match rsp.status with
    | .reserved => .refused .reservedStatus
    | .ok => .next rsp
    | .errOversize => .next rsp
    | .errShort => .next rsp

end Sys2Proof.Machine
end

