-- ==== Sys2Proof/Machine/Operands.lean ====
section
/-! DEFINITION. The operand forms: the request word of a request (30_encoding.md rule R70), the header of an APDU in
IBUF (40_parse.md rule R102), and the header of a frame in OBUF (20_memory.md rule R43). -/

namespace Sys2Proof.Machine

/-- REQW "lists every request field except IBUF" (R70). -/
def Request.word (r : Request) : ReqWord := requestWord r.op r.ssn r.rsn r.fbits r.ilen

/-- The request whose REQW is `w`, with the given IBUF: a listing (R70). -/
def Request.ofWord (w : ReqWord) (ibuf : Memory) : Request :=
  { op := w.extractLsb' 0 2, ssn := w.extractLsb' 2 15, rsn := w.extractLsb' 17 15, fbits := w.extractLsb' 32 8,
    ilen := w.extractLsb' 40 8, ibuf := ibuf }

/-- PARSE of the given APDU bytes (R80). -/
def Request.ofApdu (bytes : List Byte) : Request :=
  { op := 0b00#2, ssn := 0#15, rsn := 0#15, fbits := 0#8, ilen := BitVec.ofNat 8 bytes.length,
    ibuf := Memory.ofBytes bytes }

/-- The header capture of PARSE (R100, R102): IBUF bytes 0..5. -/
def captureHeader (ibuf : Memory) : Except Fault ControlHeader := do
  let h0 ← memRead ibuf 0
  let h1 ← memRead ibuf 1
  let c1 ← memRead ibuf 2
  let c2 ← memRead ibuf 3
  let c3 ← memRead ibuf 4
  let c4 ← memRead ibuf 5
  return { hstart := h0, halen := h1, c1 := c1, c2 := c2, c3 := c3, c4 := c4 }

/-- The control field of a header as a word (R60). -/
def ControlHeader.control (h : ControlHeader) : ControlWord := controlWord h.c1 h.c2 h.c3 h.c4

/-- The header with its control field replaced. -/
def ControlHeader.withControl (h : ControlHeader) (w : ControlWord) : ControlHeader :=
  { h with c1 := c1Of w, c2 := c2Of w, c3 := c3Of w, c4 := c4Of w }

/-- The header a builder writes: the start marker, the length byte and the four control bytes (R43, R68). -/
def writeHeader (obuf : Memory) (alen c1 c2 c3 c4 : Byte) : Except Fault Memory := do
  let m ← memWrite obuf 0 Config.startMarker
  let m ← memWrite m 1 alen
  let m ← memWrite m 2 c1
  let m ← memWrite m 3 c2
  let m ← memWrite m 4 c3
  memWrite m 5 c4

end Sys2Proof.Machine
end

