-- ==== Sys2Proof/Machine/Build.lean ====
section
/-! DEFINITION. The three builders (41_build.md rules R130, R132, R133). -/

namespace Sys2Proof.Machine

/-- The response of a builder: OBUF holds a frame of `length` bytes; every other field is zero (R30). -/
def builtFrame (length : Nat) (obuf : Memory) : Response :=
  { Response.zero with status := .ok, olen := BitVec.ofNat 8 length, obuf := obuf }

/-- BUILD_I's frame (R130): the oversize check "before it writes any byte" (R131), the header, the payload. -/
def informationFrame (maxPayload : Nat) (ssn rsn : Seq) (ilen : Byte) (ibuf : Memory) : Except Fault Response :=
  if ilen.toNat > maxPayload then raise .errOversize
  else do
    let m ← writeHeader [] (BitVec.ofNat 8 (ilen.toNat + 4)) (seqLow ssn) (seqHigh ssn) (seqLow rsn) (seqHigh rsn)
    let m ← copyBytes ibuf 0 Config.hdrBytes ilen.toNat m
    return builtFrame (ilen.toNat + Config.hdrBytes) m

/-- A frame that is its header alone, with `apduFieldLength = 4` (R132, R133). -/
def headerFrame (c1 c2 c3 c4 : Byte) : Except Fault Response := do
  let m ← writeHeader [] 0x04#8 c1 c2 c3 c4
  return builtFrame Config.hdrBytes m

/-- BUILD_I (R130). -/
def execBuildI (ssn rsn : Seq) (ilen : Byte) (s : State) : Host.Outcome State Fault Refusal :=
  perform s fun r => informationFrame s.config.maxPayload ssn rsn ilen r.ibuf

/-- BUILD_S (R132). "No other field, no IBUF byte and no configuration is read." -/
def execBuildS (rsn : Seq) (s : State) : Host.Outcome State Fault Refusal :=
  perform s fun _ => headerFrame 0x01#8 0x00#8 (seqLow rsn) (seqHigh rsn)

/-- BUILD_U (R133): `fbits` is not validated (R139). -/
def execBuildU (fbits : Byte) (s : State) : Host.Outcome State Fault Refusal :=
  perform s fun _ => headerFrame (funcByte fbits) 0x00#8 0x00#8 0x00#8

end Sys2Proof.Machine
end

