-- ==== Sys2Proof/Machine/Flags.lean ====
section
/-! DEFINITION. The per-operation outputs the spec has in place of flags (10_state.md rule R26): the codes of
30_encoding.md rules R73 to R76, the frame class (R61, R103), the control function (40_parse.md rule R107) and the
diagnostic checks (R110). -/

namespace Sys2Proof.Machine

/-! ### The codes -/

/-- The code of `rsp.status` (R73). -/
def Status.code : Status → BitVec 2
  | .ok => 0b00#2
  | .errOversize => 0b01#2
  | .errShort => 0b10#2
  | .reserved => 0b11#2

/-- The status of a code (R73). -/
def Status.ofCode (w : BitVec 2) : Status :=
  match w.toNat with
  | 0 => .ok
  | 1 => .errOversize
  | 2 => .errShort
  | _ => .reserved

/-- The code of `rsp.cls` (R74). -/
def FrameClass.code : FrameClass → BitVec 2
  | .noClass => 0b00#2
  | .information => 0b01#2
  | .supervisory => 0b10#2
  | .unnumbered => 0b11#2

/-- The class of a code (R74). -/
def FrameClass.ofCode (w : BitVec 2) : FrameClass :=
  match w.toNat with
  | 0 => .noClass
  | 1 => .information
  | 2 => .supervisory
  | _ => .unnumbered

/-- The code of `rsp.ufn` (R75). -/
def ControlFunction.code : ControlFunction → BitVec 3
  | .noFunction => 0#3
  | .startActivate => 1#3
  | .startConfirm => 2#3
  | .stopActivate => 3#3
  | .stopConfirm => 4#3
  | .testActivate => 5#3
  | .testConfirm => 6#3
  | .unknown => 7#3

/-- The function of a code (R75). -/
def ControlFunction.ofCode (w : BitVec 3) : ControlFunction :=
  match w.toNat with
  | 0 => .noFunction
  | 1 => .startActivate
  | 2 => .startConfirm
  | 3 => .stopActivate
  | 4 => .stopConfirm
  | 5 => .testActivate
  | 6 => .testConfirm
  | _ => .unknown

/-- The code of `rsp.chk` (R76): bit 0 START_BAD, bit 1 LEN_MISMATCH, bit 2 FIXED_BAD. -/
def Checks.code (c : Checks) : BitVec 3 :=
  field 3 2 (BitVec.ofBool c.fixedBad) ||| field 3 1 (BitVec.ofBool c.lenMismatch) |||
    field 3 0 (BitVec.ofBool c.startBad)

/-- The checks of a code (R76). -/
def Checks.ofCode (w : BitVec 3) : Checks :=
  { startBad := w.getLsbD 0, lenMismatch := w.getLsbD 1, fixedBad := w.getLsbD 2 }

/-! ### The computations -/

/-- Frame-class discrimination (R61): "The class of a header depends on `c1[1:0]` alone". -/
def classOf (c1 : Byte) : FrameClass :=
  if c1.extractLsb' 0 1 = 0#1 then .information
  else if c1.extractLsb' 0 2 = 0b01#2 then .supervisory
  else .unnumbered

/-- `UFN(f)` (R107): "The match is by equality of the whole byte `func`". -/
def functionOf (func : Byte) : ControlFunction :=
  match func.toNat with
  | 0x04 => .startActivate
  | 0x08 => .startConfirm
  | 0x10 => .stopActivate
  | 0x20 => .stopConfirm
  | 0x40 => .testActivate
  | 0x80 => .testConfirm
  | _ => .unknown

/-- FIXED_BAD (R110): a fixed byte of an S or U header is not its expected value. -/
def fixedBad (h : ControlHeader) : FrameClass → Bool
  | .noClass => false
  | .information => false
  | .supervisory => h.c1 != 0x01#8 || h.c2 != 0x00#8
  | .unnumbered => h.c2 != 0x00#8 || h.c3 != 0x00#8 || h.c4 != 0x00#8

/-- `CHK(h0, h1, c1, c2, c3, c4, N, cls)` (R110), with N in 6..255. -/
def checksOf (h : ControlHeader) (n : Nat) (cls : FrameClass) : Checks :=
  { startBad := h.hstart != Config.startMarker
    lenMismatch := h.halen.toNat != n - 2
    fixedBad := fixedBad h cls }

end Sys2Proof.Machine
end

