-- ==== Sys2Proof/Machine/Parse.lean ====
section
/-! DEFINITION. PARSE (40_parse.md rule R100) and the pieces its frame classes share (rules R101 to R111). -/

namespace Sys2Proof.Machine

/-- The head of PARSE: ERR_SHORT "reads no byte of IBUF" (R101), else the header is captured (R102). -/
def withHeader (n : Byte) (ibuf : Memory) (rest : ControlHeader → Except Fault Response) : Except Fault Response :=
  if n.toNat < Config.hdrBytes then raise .errShort
  else do
    let h ← captureHeader ibuf
    rest h

/-- What PARSE writes for every class: the status, the class, the header as received (R102), the payload split
(R108) and the checks (R110). Every field it does not name is zero (R30). -/
def parsedFrame (n : Byte) (h : ControlHeader) (cls : FrameClass) (ibuf : Memory) : Except Fault Response := do
  let obuf ← copyBytes ibuf Config.hdrBytes 0 (n.toNat - Config.hdrBytes) []
  return { Response.zero with
    status := .ok, cls := cls, hstart := h.hstart, halen := h.halen, hc1 := h.c1, hc2 := h.c2, hc3 := h.c3,
    hc4 := h.c4, chk := checksOf h n.toNat cls, olen := BitVec.ofNat 8 (n.toNat - Config.hdrBytes), obuf := obuf }

/-- An I frame (R104): the two sequence numbers. -/
def parsedInformation (n : Byte) (h : ControlHeader) (ssn rsn : Seq) (ibuf : Memory) : Except Fault Response := do
  let rsp ← parsedFrame n h .information ibuf
  return { rsp with ssn := ssn, rsn := rsn }

/-- An S frame (R105): the receive sequence number. -/
def parsedSupervisory (n : Byte) (h : ControlHeader) (rsn : Seq) (ibuf : Memory) : Except Fault Response := do
  let rsp ← parsedFrame n h .supervisory ibuf
  return { rsp with rsn := rsn }

/-- A U frame (R106, R107): the function code and the function it names. -/
def parsedUnnumbered (n : Byte) (h : ControlHeader) (func : Byte) (ufn : ControlFunction) (ibuf : Memory) :
    Except Fault Response := do
  let rsp ← parsedFrame n h .unnumbered ibuf
  return { rsp with func := func, ufn := ufn }

/-- The class-specific part of PARSE (R103 to R107). A header always has one of the three classes (R61). -/
def parsedByClass (n : Byte) (h : ControlHeader) (ibuf : Memory) : FrameClass → Except Fault Response
  | .noClass => parsedFrame n h .noClass ibuf
  | .information => parsedInformation n h (seqOf h.c1 h.c2) (seqOf h.c3 h.c4) ibuf
  | .supervisory => parsedSupervisory n h (seqOf h.c3 h.c4) ibuf
  | .unnumbered => parsedUnnumbered n h (funcOf h.c1) (functionOf (funcOf h.c1)) ibuf

/-- PARSE (R100). MAX_PAYLOAD is not read (R111). -/
def execParse (ilen : Byte) (s : State) : Host.Outcome State Fault Refusal :=
  perform s fun r => withHeader ilen r.ibuf fun h => parsedByClass ilen h r.ibuf (classOf h.c1)

end Sys2Proof.Machine
end

