-- ==== Sys2Proof/Machine/Frames.lean ====
section
/-! DEFINITION. The frame rows of the opcode table: the three classes (40_parse.md rules R104 to R106) and the
control functions (42_control_functions.md rules R160 to R166). A frame row is what PARSE does with an APDU whose
control field is a word of that row (30_encoding.md rule R72; assumption 10): the rest of the APDU, its length, its
first two bytes and its payload, is the request's in flight. -/

namespace Sys2Proof.Machine

/-- A frame row's response to a request: the header's control field is the row's word `w`. -/
def frameOperation (w : ControlWord) (row : Byte → ControlHeader → Memory → Except Fault Response) (r : Request) :
    Except Fault Response :=
  withHeader r.ilen r.ibuf fun h => row r.ilen (h.withControl w) r.ibuf

/-- A frame row on the request in flight. -/
def performFrame (s : State) (w : ControlWord)
    (row : Byte → ControlHeader → Memory → Except Fault Response) : Host.Outcome State Fault Refusal :=
  perform s (frameOperation w row)

/-- A function row (R72, second level under U_FRAME): the function code `func` and the function it names. -/
def performFunction (s : State) (w : ControlWord) (func : Byte) (ufn : ControlFunction) :
    Host.Outcome State Fault Refusal :=
  performFrame s w fun n h ibuf => parsedUnnumbered n h func ufn ibuf

/-- I_FRAME (R104): "`c3[0]` is ignored". -/
def execIFrame (ssn rsn : Seq) (ignored : BitVec 1) (s : State) : Host.Outcome State Fault Refusal :=
  performFrame s (iControl ssn rsn ignored) fun n h ibuf => parsedInformation n h ssn rsn ibuf

/-- S_FRAME (R105): the fixed bits reach only `chk` and the header capture. -/
def execSFrame (fixedC1 : BitVec 6) (fixedC2 : Byte) (ignored : BitVec 1) (rsn : Seq) (s : State) :
    Host.Outcome State Fault Refusal :=
  performFrame s (sControl fixedC1 fixedC2 ignored rsn) fun n h ibuf => parsedSupervisory n h rsn ibuf

/-- U_FRAME (R106): `func[7:2]` from the row's bits, `func[1:0] = 0`; the function by R107. -/
def execUFrame (func : BitVec 6) (fixed : BitVec 24) (s : State) : Host.Outcome State Fault Refusal :=
  performFunction s (uControl func fixed) (field 8 2 func) (functionOf (field 8 2 func))

/-- U_StartActivate (R160): `func = 0x04`, `ufn = 1`. -/
def execUStartActivate (fixed : BitVec 24) (s : State) : Host.Outcome State Fault Refusal :=
  performFunction s (uControl 0b000001#6 fixed) 0x04#8 .startActivate

/-- U_StartConfirm (R161): `func = 0x08`, `ufn = 2`. -/
def execUStartConfirm (fixed : BitVec 24) (s : State) : Host.Outcome State Fault Refusal :=
  performFunction s (uControl 0b000010#6 fixed) 0x08#8 .startConfirm

/-- U_StopActivate (R162): `func = 0x10`, `ufn = 3`. -/
def execUStopActivate (fixed : BitVec 24) (s : State) : Host.Outcome State Fault Refusal :=
  performFunction s (uControl 0b000100#6 fixed) 0x10#8 .stopActivate

/-- U_StopConfirm (R163): `func = 0x20`, `ufn = 4`. -/
def execUStopConfirm (fixed : BitVec 24) (s : State) : Host.Outcome State Fault Refusal :=
  performFunction s (uControl 0b001000#6 fixed) 0x20#8 .stopConfirm

/-- U_TestActivate (R164): `func = 0x40`, `ufn = 5`. -/
def execUTestActivate (fixed : BitVec 24) (s : State) : Host.Outcome State Fault Refusal :=
  performFunction s (uControl 0b010000#6 fixed) 0x40#8 .testActivate

/-- U_TestConfirm (R165): `func = 0x80`, `ufn = 6`. -/
def execUTestConfirm (fixed : BitVec 24) (s : State) : Host.Outcome State Fault Refusal :=
  performFunction s (uControl 0b100000#6 fixed) 0x80#8 .testConfirm

/-- U_Unknown (R166): `func = f & 0xFC`, `ufn = 7`, `status = OK`. -/
def execUUnknown (func : BitVec 6) (fixed : BitVec 24) (s : State) : Host.Outcome State Fault Refusal :=
  performFunction s (uControl func fixed) (field 8 2 func) .unknown

end Sys2Proof.Machine
end

