-- ==== Sys2Proof/Machine/Dispatch.lean ====
section
/-! DEFINITION. One arm per row of the opcode table. -/

namespace Sys2Proof.Machine

def exec (i : Instr) (s : State) : Host.Outcome State Fault Refusal :=
  match i with
  | .parse ilen => Sys2Proof.Machine.execParse ilen s
  | .buildI ssn rsn ilen => Sys2Proof.Machine.execBuildI ssn rsn ilen s
  | .buildS rsn => Sys2Proof.Machine.execBuildS rsn s
  | .buildU fbits => Sys2Proof.Machine.execBuildU fbits s
  | .iFrame ssn rsn ignored => Sys2Proof.Machine.execIFrame ssn rsn ignored s
  | .sFrame fixedC1 fixedC2 ignored rsn => Sys2Proof.Machine.execSFrame fixedC1 fixedC2 ignored rsn s
  | .uFrame func fixed => Sys2Proof.Machine.execUFrame func fixed s
  | .uStartActivate fixed => Sys2Proof.Machine.execUStartActivate fixed s
  | .uStartConfirm fixed => Sys2Proof.Machine.execUStartConfirm fixed s
  | .uStopActivate fixed => Sys2Proof.Machine.execUStopActivate fixed s
  | .uStopConfirm fixed => Sys2Proof.Machine.execUStopConfirm fixed s
  | .uTestActivate fixed => Sys2Proof.Machine.execUTestActivate fixed s
  | .uTestConfirm fixed => Sys2Proof.Machine.execUTestConfirm fixed s
  | .uUnknown func fixed => Sys2Proof.Machine.execUUnknown func fixed s

end Sys2Proof.Machine
end

