-- ==== Sys2Proof/Machine/Step.lean ====
section
/-! DEFINITION. One step of the codec: it publishes the response of the request in flight, or accepts the oldest
issued request, or waits (20_memory.md rules R50 and R51; assumptions 4, 5 and 15). And where the host places an
instruction. -/

namespace Sys2Proof.Machine

/-- One step. "It performs the operation named by `req.op` of each request" (R25). -/
def step (s : State) : Host.Outcome State Fault Refusal :=
  if s.config.legal then
    match s.inFlight with
    | some r => exec (decodeRequest r.word) s
    | none =>
      match s.issued with
      | r :: rest => .next (s.accept r rest)
      | [] => .next s
  else .refused .illegalMaxPayload

/-- The request that carries an encoded instruction: a REQW with an IBUF of zeros, and a control field as PARSE of
the six-byte APDU `68 04 c1 c2 c3 c4` (assumption 12). -/
def carrier : Encoded → Request
  | .reqw w => Request.ofWord w []
  | .cw w => Request.ofApdu [Config.startMarker, 0x04#8, c1Of w, c2Of w, c3Of w, c4Of w]

/-- The state in which the very next step performs the instruction of that word: its request is in flight. -/
def State.withFetchWord (s : State) (nbits w : Nat) : State :=
  match encodedOf nbits w with
  | .ok e => { s with inFlight := some (carrier e) }
  | .error _ => s

end Sys2Proof.Machine
end

