-- ==== Sys2Proof/Machine/Assembler.lean ====
section
/-! DEFINITION. The assembler of 30_encoding.md rules R80 and R81: from a line of text to the request it stands for,
and the refusals rule R80 names. The lexical points the rule leaves open, and what
becomes of a program with a refused line, are assumption 17. -/

namespace Sys2Proof.Machine

/-- Why the assembler refuses a line (R80). -/
inductive AsmError where
  /-- "a sequence number above 32767". -/
  | sequenceTooLarge
  /-- "an `fbits` above 0xFF". -/
  | functionBitsTooLarge
  /-- "a byte list longer than 255 bytes". -/
  | listTooLong
  /-- "an unknown mnemonic". -/
  | unknownMnemonic
  /-- Not a statement of the table of R80 (assumption 17). -/
  | badOperands
  deriving DecidableEq, Repr

/-- A statement of R80, its numbers and bytes read. -/
inductive AsmStatement where
  | parse (bytes : List Byte)
  | buildI (ssn rsn : Nat) (payload : List Byte)
  | buildS (rsn : Nat)
  | buildU (fbits : Nat)
  deriving DecidableEq, Repr

/-- The six pseudo-instructions (R81). -/
inductive AsmPseudo where
  | startact
  | startcon
  | stopact
  | stopcon
  | testact
  | testcon
  deriving DecidableEq, Repr

/-- "Each of the six stands for one `BUILD_U` with the source's function value" (R81). -/
def AsmPseudo.expand : AsmPseudo → AsmStatement
  | .startact => .buildU 0x04
  | .startcon => .buildU 0x08
  | .stopact => .buildU 0x10
  | .stopcon => .buildU 0x20
  | .testact => .buildU 0x40
  | .testcon => .buildU 0x80

/-- The request a statement assembles to, or its refusal (R80). "Unused fields are written 0." -/
def AsmStatement.assemble : AsmStatement → Except AsmError Request
  | .parse bytes =>
    if bytes.length > 255 then .error .listTooLong else .ok (Request.ofApdu bytes)
  | .buildI ssn rsn payload =>
    if ssn > 32767 ∨ rsn > 32767 then .error .sequenceTooLarge
    else if payload.length > 255 then .error .listTooLong
    else .ok { op := 0b01#2, ssn := BitVec.ofNat 15 ssn, rsn := BitVec.ofNat 15 rsn, fbits := 0#8,
               ilen := BitVec.ofNat 8 payload.length, ibuf := Memory.ofBytes payload }
  | .buildS rsn =>
    if rsn > 32767 then .error .sequenceTooLarge
    else .ok { op := 0b10#2, ssn := 0#15, rsn := BitVec.ofNat 15 rsn, fbits := 0#8, ilen := 0#8, ibuf := [] }
  | .buildU fbits =>
    if fbits > 0xFF then .error .functionBitsTooLarge
    else .ok { op := 0b11#2, ssn := 0#15, rsn := 0#15, fbits := BitVec.ofNat 8 fbits, ilen := 0#8, ibuf := [] }

/-! ### The text -/

/-- The tokens of a line. -/
inductive AsmToken where
  | word (cs : List Char)
  | comma
  | openList
  | closeList
  deriving DecidableEq, Repr

/-- The word read so far (its characters in reverse), if there is one. -/
def asmWord : List Char → List AsmToken
  | [] => []
  | c :: cs => [.word (c :: cs).reverse]

/-- "`;` starts a comment"; spaces and tabs separate (R80). The first argument is the word read so far. -/
def asmTokens : List Char → List Char → List AsmToken
  | w, [] => asmWord w
  | w, c :: cs =>
    if c = ';' then asmWord w
    else if c = ',' then asmWord w ++ .comma :: asmTokens [] cs
    else if c = '[' then asmWord w ++ .openList :: asmTokens [] cs
    else if c = ']' then asmWord w ++ .closeList :: asmTokens [] cs
    else if c = ' ' ∨ c = '\t' then asmWord w ++ asmTokens [] cs
    else asmTokens (c :: w) cs

/-- The value of a hexadecimal digit. -/
def hexDigit (c : Char) : Option Nat :=
  if 48 ≤ c.toNat ∧ c.toNat ≤ 57 then some (c.toNat - 48)
  else if 65 ≤ c.toNat ∧ c.toNat ≤ 70 then some (c.toNat - 55)
  else if 97 ≤ c.toNat ∧ c.toNat ≤ 102 then some (c.toNat - 87)
  else none

/-- The value of a decimal digit. -/
def decDigit (c : Char) : Option Nat :=
  if 48 ≤ c.toNat ∧ c.toNat ≤ 57 then some (c.toNat - 48) else none

/-- The value of a row of digits in a base, most significant first, after the value `acc`. -/
def digitsValue (base : Nat) (digit : Char → Option Nat) : Nat → List Char → Option Nat
  | acc, [] => some acc
  | acc, c :: cs =>
    match digit c with
    | some d => digitsValue base digit (acc * base + d) cs
    | none => none

/-- "A number is decimal or `0x`-prefixed hexadecimal" (R80). -/
def asmNumber : List Char → Except AsmError Nat
  | '0' :: 'x' :: d :: ds => (digitsValue 16 hexDigit 0 (d :: ds)).elim (.error .badOperands) .ok
  | d :: ds => (digitsValue 10 decDigit 0 (d :: ds)).elim (.error .badOperands) .ok
  | [] => .error .badOperands

/-- A byte of a list: "two-digit hexadecimal bytes without a prefix" (R80). -/
def asmByte : List Char → Except AsmError Byte
  | [a, b] => (digitsValue 16 hexDigit 0 [a, b]).elim (.error .badOperands) fun v => .ok (BitVec.ofNat 8 v)
  | _ => .error .badOperands

/-- The bytes of a list up to its closing bracket, which ends the statement. -/
def asmBytes : List AsmToken → Except AsmError (List Byte)
  | [.closeList] => .ok []
  | .word cs :: ts => do
    let b ← asmByte cs
    let bs ← asmBytes ts
    return b :: bs
  | _ => .error .badOperands

/-- The mnemonics of R80 and R81. -/
inductive AsmMnemonic where
  | parse
  | buildI
  | buildS
  | buildU
  | pseudo (p : AsmPseudo)
  deriving DecidableEq, Repr

/-- The spellings of R80 and R81. -/
def asmMnemonics : List (List Char × AsmMnemonic) :=
  [(['P', 'A', 'R', 'S', 'E'], .parse),
   (['B', 'U', 'I', 'L', 'D', '_', 'I'], .buildI),
   (['B', 'U', 'I', 'L', 'D', '_', 'S'], .buildS),
   (['B', 'U', 'I', 'L', 'D', '_', 'U'], .buildU),
   (['S', 'T', 'A', 'R', 'T', 'A', 'C', 'T'], .pseudo .startact),
   (['S', 'T', 'A', 'R', 'T', 'C', 'O', 'N'], .pseudo .startcon),
   (['S', 'T', 'O', 'P', 'A', 'C', 'T'], .pseudo .stopact),
   (['S', 'T', 'O', 'P', 'C', 'O', 'N'], .pseudo .stopcon),
   (['T', 'E', 'S', 'T', 'A', 'C', 'T'], .pseudo .testact),
   (['T', 'E', 'S', 'T', 'C', 'O', 'N'], .pseudo .testcon)]

/-- The operands of a statement (the middle column of R80's table). -/
def asmOperands : AsmMnemonic → List AsmToken → Except AsmError AsmStatement
  | .parse, .openList :: ts => do
    let bytes ← asmBytes ts
    return .parse bytes
  | .buildI, .word a :: .comma :: .word b :: .comma :: .openList :: ts => do
    let ssn ← asmNumber a
    let rsn ← asmNumber b
    let payload ← asmBytes ts
    return .buildI ssn rsn payload
  | .buildS, [.word a] => do
    let rsn ← asmNumber a
    return .buildS rsn
  | .buildU, [.word a] => do
    let fbits ← asmNumber a
    return .buildU fbits
  | .pseudo p, [] => .ok p.expand
  | _, _ => .error .badOperands

/-- A line of tokens: nothing, or one statement (R80: "There is one statement per line"). -/
def asmStatement : List AsmToken → Except AsmError (Option AsmStatement)
  | [] => .ok none
  | .word m :: ts =>
    match asmMnemonics.lookup m with
    | none => .error .unknownMnemonic
    | some k => do
      let st ← asmOperands k ts
      return some st
  | _ => .error .badOperands

/-- The request a line stands for; none for a line without a statement. -/
def assembleLine (line : List Char) : Except AsmError (Option Request) := do
  match ← asmStatement (asmTokens [] line) with
  | none => return none
  | some st => return some (← st.assemble)

/-- The requests of a program whose first line has the given number; "The assembler refuses these, by line" (R80).
DESIGN CHOICE (assumption 17): it stops at the first refused line, names only that line, and yields no request of the
program. -/
def assembleFrom : Nat → List (List Char) → Except (Nat × AsmError) (List Request)
  | _, [] => .ok []
  | n, line :: lines =>
    match assembleLine line with
    | .error e => .error (n, e)
    | .ok none => assembleFrom (n + 1) lines
    | .ok (some r) => do
      let rs ← assembleFrom (n + 1) lines
      return r :: rs

/-- The listing of a request (R70): REQW, and "the `ilen` bytes of IBUF follow REQW in a listing, in address
order". -/
def Request.listing (r : Request) : ReqWord × List Byte := (r.word, r.ibuf.bytes r.ilen.toNat)

end Sys2Proof.Machine
end

