-- ==== Sys2Proof/Machine/System.lean ====
section
/-! DEFINITION. The two agents together (00_scope.md rule R12): what the caller and the codec do, in any order, the
responses that are published on the way (20_memory.md rule R51), and several codecs side by side (R52). -/

namespace Sys2Proof.Machine

/-- One event: the caller issues a request, a reset arrives, or the codec makes one step. They may come in any
order (assumption 18). -/
inductive Event where
  | issue (r : Request)
  | reset
  | codec
  deriving DecidableEq, Repr

/-- What an event does. -/
def applyEvent : Event → State → Host.Outcome State Fault Refusal
  | .issue r, s => .next (s.issue r)
  | .reset, s => .next s.applyReset
  | .codec, s => step s

/-- The response an event publishes: a codec step does so when a request was in flight (R50). -/
def publishedBy : Event → State → State → List Response
  | .issue _, _, _ => []
  | .reset, _, _ => []
  | .codec, before, after => if before.inFlight.isSome then after.response.toList else []

/-- The responses published by a list of events, in order; it ends where the machine stops. -/
def responses : List Event → State → List Response
  | [], _ => []
  | e :: es, s =>
    match applyEvent e s with
    | .next s' => publishedBy e s s' ++ responses es s'
    | .fault _ => []
    | .refused _ => []

/-- The state after a list of events. -/
def runEvents : List Event → State → Host.Outcome State Fault Refusal
  | [], s => .next s
  | e :: es, s =>
    match applyEvent e s with
    | .next s' => runEvents es s'
    | .fault r => .fault r
    | .refused r => .refused r

/-- The requests a list of events issues, in order. -/
def issuedIn : List Event → List Request
  | [] => []
  | .issue r :: es => r :: issuedIn es
  | .reset :: es => issuedIn es
  | .codec :: es => issuedIn es

/-- The requests whose response is still to come: the one in flight, then the issued ones (R51). -/
def State.pending (s : State) : List Request := s.inFlight.toList ++ s.issued

/-- The response to a request performed alone (R51: "performing each request alone"), by a codec that holds nothing
else; none where that codec stops. -/
def respondAlone (c : Config) (r : Request) : Option Response :=
  match step { config := c, issued := [], inFlight := some r, response := none } with
  | .next s => s.response
  | .fault _ => none
  | .refused _ => none

/-- An event at the `k`-th of several codecs (R52); nothing happens where there is no such codec. -/
def eventAt (k : Nat) (e : Event) (codecs : List State) : Host.Outcome (List State) Fault Refusal :=
  match codecs[k]? with
  | none => .next codecs
  | some s =>
    match applyEvent e s with
    | .next s' => .next (codecs.set k s')
    | .fault r => .fault r
    | .refused r => .refused r

end Sys2Proof.Machine
end

