-- ==== Sys2Proof/Safety.lean ====
section
/-! DEFINITION. What counts as a safe codec and as a dutiful caller: the consistency of a response (10_state.md rules
R22 and R30, 30_encoding.md rules R61 and R73, 41_build.md rule R134), the invariant of a state, and the caller
duties of 70_reset_and_hazards.md that are about one request. -/

namespace Sys2Proof.Machine

/-- The fields no BUILD operation and no error gives a meaning are zero (R30). -/
def Response.parseFieldsZero (p : Response) : Prop :=
  p.cls = .noClass ∧ p.hstart = 0#8 ∧ p.halen = 0#8 ∧ p.hc1 = 0#8 ∧ p.hc2 = 0#8 ∧ p.hc3 = 0#8 ∧ p.hc4 = 0#8 ∧
  p.ssn = 0#15 ∧ p.rsn = 0#15 ∧ p.func = 0#8 ∧ p.ufn = .noFunction ∧ p.chk.code = 0#3

/-- A response of a builder holds a whole frame (R134): the start marker, and the length byte `olen - 2`. -/
def Response.holdsFrame (p : Response) : Prop :=
  p.parseFieldsZero ∧ 6 ≤ p.olen.toNat ∧ p.obuf.read 0 = 0x68#8 ∧ (p.obuf.read 1).toNat + 2 = p.olen.toNat

/-- A response of PARSE: the class is that of c1 (R61) and the fields are those of the class (R30, R104 to R107). -/
def Response.holdsParse (p : Response) : Prop :=
  p.olen.toNat ≤ 249 ∧ p.cls = classOf p.hc1 ∧
  (p.cls = .information → p.ssn = seqOf p.hc1 p.hc2 ∧ p.rsn = seqOf p.hc3 p.hc4 ∧ p.func = 0#8 ∧
    p.ufn = .noFunction ∧ p.chk.fixedBad = false) ∧
  (p.cls = .supervisory → p.ssn = 0#15 ∧ p.rsn = seqOf p.hc3 p.hc4 ∧ p.func = 0#8 ∧ p.ufn = .noFunction) ∧
  (p.cls = .unnumbered → p.ssn = 0#15 ∧ p.rsn = 0#15 ∧ p.func = funcOf p.hc1 ∧ p.ufn = functionOf p.func)

/-- A response of this block: no reserved status (R73), OBUF canonical and zero at or above `olen` (R42), after an
error everything else zero (R203), else a frame or a parsed header. -/
def Response.consistent (p : Response) : Prop :=
  p.status ≠ .reserved ∧ p.obuf.wf = true ∧ (∀ a, p.olen.toNat ≤ a → p.obuf.read a = 0#8) ∧
  (p.status ≠ .ok → p = Response.error p.status) ∧
  (p.status = .ok → p.holdsFrame ∨ p.holdsParse)

/-- The invariant of a codec: a legal MAX_PAYLOAD (R7), input buffers of existing addresses in canonical form (R40),
and a consistent response where one exists. -/
def State.Inv (s : State) : Prop :=
  s.config.legal = true ∧ (∀ r ∈ s.issued, r.ibuf.wf = true) ∧ (∀ r ∈ s.inFlight, r.ibuf.wf = true) ∧
  (∀ p ∈ s.response, p.consistent)

/-- The caller duties about one request: PARSE gets exactly one APDU, "`ilen` set to that APDU's length", found "from
the APDU's length byte as `alen + 2`" (R223), of at least 6 bytes (R226); BUILD_U gets one of the six function values
(R224). -/
def Request.dutiful (r : Request) : Prop :=
  (r.op = 0b00#2 → 6 ≤ r.ilen.toNat ∧ r.ilen.toNat = (r.ibuf.read 1).toNat + 2) ∧
  (r.op = 0b11#2 → r.fbits ∈ [0x04#8, 0x08#8, 0x10#8, 0x20#8, 0x40#8, 0x80#8])

/-! ### The vocabulary of the statements: plain arithmetic on the bytes, not the model's shifts -/

/-- A request is in flight under a legal configuration: the codec performs its operation next (R7, R50). -/
def State.ready (s : State) (r : Request) : Prop := s.config.legal = true ∧ s.inFlight = some r

/-- The number of a sequence number's two bytes (R45): the low 7 bits are bits 7:1 of the first byte, the high 8 bits
are the next byte. -/
def seqValue (low high : Byte) : Nat := low.toNat / 2 + 128 * high.toNat

/-- The header at the start of IBUF (R43). -/
def Memory.header (ibuf : Memory) : ControlHeader :=
  { hstart := ibuf.read 0, halen := ibuf.read 1, c1 := ibuf.read 2, c2 := ibuf.read 3, c3 := ibuf.read 4,
    c4 := ibuf.read 5 }

/-- What PARSE answers for an APDU of `n` bytes with the header `h`, whatever the class (R100, R102, R108, and the
first two bits of R110). -/
def Response.splitsApdu (p : Response) (n : Nat) (h : ControlHeader) (ibuf : Memory) : Prop :=
  p.status = .ok ∧ p.hstart = h.hstart ∧ p.halen = h.halen ∧ p.hc1 = h.c1 ∧ p.hc2 = h.c2 ∧ p.hc3 = h.c3 ∧
  p.hc4 = h.c4 ∧ p.olen.toNat = n - 6 ∧ p.obuf.wf = true ∧
  (∀ a, p.obuf.read a = if a < n - 6 then ibuf.read (6 + a) else 0#8) ∧
  (p.chk.startBad = true ↔ h.hstart ≠ 0x68#8) ∧ (p.chk.lenMismatch = true ↔ h.halen.toNat ≠ n - 2)

/-- The fields of an I frame's response (R104, R30). -/
def Response.fieldsOfI (p : Response) (ssn rsn : Nat) : Prop :=
  p.cls = .information ∧ p.ssn.toNat = ssn ∧ p.rsn.toNat = rsn ∧ p.func = 0#8 ∧ p.ufn = .noFunction ∧
  p.chk.fixedBad = false

/-- The fields of an S frame's response (R105, R30, R110). -/
def Response.fieldsOfS (p : Response) (h : ControlHeader) (rsn : Nat) : Prop :=
  p.cls = .supervisory ∧ p.ssn = 0#15 ∧ p.rsn.toNat = rsn ∧ p.func = 0#8 ∧ p.ufn = .noFunction ∧
  (p.chk.fixedBad = true ↔ h.c1 ≠ 0x01#8 ∨ h.c2 ≠ 0x00#8)

/-- The fields of a U frame's response (R106, R107, R30, R110). -/
def Response.fieldsOfU (p : Response) (h : ControlHeader) (func : Byte) (ufn : ControlFunction) : Prop :=
  p.cls = .unnumbered ∧ p.ssn = 0#15 ∧ p.rsn = 0#15 ∧ p.func = func ∧ p.ufn = ufn ∧
  (p.chk.fixedBad = true ↔ h.c2 ≠ 0x00#8 ∨ h.c3 ≠ 0x00#8 ∨ h.c4 ≠ 0x00#8)

/-- What a builder answers: OBUF holds the header with the given control bytes and then `l` bytes of IBUF, zero after
them; every other field is zero (R43, R68, R30, R58). -/
def Response.isFrame (p : Response) (c1 c2 c3 c4 : Byte) (l : Nat) (ibuf : Memory) : Prop :=
  p.status = .ok ∧ p.parseFieldsZero ∧ p.olen.toNat = l + 6 ∧ p.obuf.wf = true ∧
  (∀ a, p.obuf.read a =
    if a < 6 then [0x68#8, BitVec.ofNat 8 (l + 4), c1, c2, c3, c4].getD a 0#8
    else if a < l + 6 then ibuf.read (a - 6) else 0#8)

/-- Every field but the status is zero (R203). -/
def Response.allZeroButStatus (p : Response) : Prop := p.parseFieldsZero ∧ p.olen = 0#8 ∧ p.obuf = []

/-- The PARSE request that hands a built frame back: IBUF is that frame's OBUF and `ilen` its `olen` (R135); the
fields PARSE does not use hold anything. -/
def Request.parseOf (b : Response) (ssn rsn : Seq) (fbits : Byte) : Request :=
  { op := 0b00#2, ilen := b.olen, ibuf := b.obuf, ssn := ssn, rsn := rsn, fbits := fbits }

/-- Two requests the codec cannot tell apart: the same operation, the same fields that operation uses, the same
IBUF bytes below `ilen` where it uses IBUF (R21, R41). -/
def Request.agree (r r' : Request) : Prop :=
  r.op = r'.op ∧
  (r.op = 0b00#2 ∨ r.op = 0b01#2 → r.ilen = r'.ilen ∧ ∀ a, a < r.ilen.toNat → r.ibuf.read a = r'.ibuf.read a) ∧
  (r.op = 0b01#2 → r.ssn = r'.ssn) ∧ (r.op = 0b01#2 ∨ r.op = 0b10#2 → r.rsn = r'.rsn) ∧
  (r.op = 0b11#2 → r.fbits = r'.fbits)

/-- A frame row of the opcode table (level class or function). -/
def isFrameRow (i : Instr) : Bool := i.level != .operation

end Sys2Proof.Machine
end

