-- ==== Sys2Proof/Certificates/Slice0/Obligations.lean ====
section
/-! DEFINITION. The statements for the provers. -/

open Sys2Proof Sys2Proof.Machine

/-! ### Encoding and decoding -/

/-- R65: `ssn = {c2[7:0], c1[7:1]}`, and "The result never has bit 15 set". -/
def Obligations.SequenceNumberFromItsTwoBytes : Prop :=
  ∀ low high : Byte, (seqOf low high).toNat = low.toNat / 2 + 128 * high.toNat ∧
    low.toNat / 2 + 128 * high.toNat ≤ 32767

/-- R66: `c1 = {ssn[6:0], 0}`, `c2 = ssn[14:7]`, "the exact inverse of §4.1's decoding". -/
def Obligations.SequenceNumberIntoItsTwoBytes : Prop :=
  ∀ s : Seq, (seqLow s).toNat = 2 * (s.toNat % 128) ∧ (seqHigh s).toNat = s.toNat / 128 ∧
    seqOf (seqLow s) (seqHigh s) = s

/-- R67: decode `{c1[7:2], 0b00}`, encode `{fbits[7:2], 0b11}`; a U frame built from `fbits` decodes to
`fbits & 0xFC`. -/
def Obligations.FunctionCodeAndItsByte : Prop :=
  ∀ f : Byte, (funcOf f).toNat = 4 * (f.toNat / 4) ∧ (funcByte f).toNat = 4 * (f.toNat / 4) + 3 ∧
    funcOf (funcByte f) = f &&& 0xFC#8

/-- R61: the class is decided by c1[1:0] alone; of the 256 values of c1, 128 are I, 64 are S and 64 are U. -/
def Obligations.FrameClassByTheTagOfC1 : Prop :=
  (∀ c1 c2 c3 c4 : Byte,
    (c1.toNat % 2 = 0 → classOf c1 = .information ∧
      ∃ a b g, decodeClass (controlWord c1 c2 c3 c4) = .iFrame a b g) ∧
    (c1.toNat % 4 = 1 → classOf c1 = .supervisory ∧
      ∃ a b g d, decodeClass (controlWord c1 c2 c3 c4) = .sFrame a b g d) ∧
    (c1.toNat % 4 = 3 → classOf c1 = .unnumbered ∧
      ∃ a b, decodeClass (controlWord c1 c2 c3 c4) = .uFrame a b)) ∧
  ((List.range 256).filter fun c => classOf (BitVec.ofNat 8 c) = .information).length = 128 ∧
  ((List.range 256).filter fun c => classOf (BitVec.ofNat 8 c) = .supervisory).length = 64 ∧
  ((List.range 256).filter fun c => classOf (BitVec.ofNat 8 c) = .unnumbered).length = 64

/-- R71: "All four values name an operation", each in REQW[1:0], with the fields where R70 lays them out; and the
word of a request record holds its fields there. -/
def Obligations.RequestOperationByItsTwoBits : Prop :=
  (∀ w : ReqWord,
    (w.toNat % 4 = 0 → decodeRequest w = .parse (BitVec.ofNat 8 (w.toNat / 2 ^ 40))) ∧
    (w.toNat % 4 = 1 → decodeRequest w = .buildI (BitVec.ofNat 15 (w.toNat / 2 ^ 2))
      (BitVec.ofNat 15 (w.toNat / 2 ^ 17)) (BitVec.ofNat 8 (w.toNat / 2 ^ 40))) ∧
    (w.toNat % 4 = 2 → decodeRequest w = .buildS (BitVec.ofNat 15 (w.toNat / 2 ^ 17))) ∧
    (w.toNat % 4 = 3 → decodeRequest w = .buildU (BitVec.ofNat 8 (w.toNat / 2 ^ 32)))) ∧
  ∀ r : Request,
    r.word.toNat = r.op.toNat + 2 ^ 2 * r.ssn.toNat + 2 ^ 17 * r.rsn.toNat + 2 ^ 32 * r.fbits.toNat +
      2 ^ 40 * r.ilen.toNat ∧
    (r.op = 0b00#2 → decodeRequest r.word = .parse r.ilen) ∧
    (r.op = 0b01#2 → decodeRequest r.word = .buildI r.ssn r.rsn r.ilen) ∧
    (r.op = 0b10#2 → decodeRequest r.word = .buildS r.rsn) ∧
    (r.op = 0b11#2 → decodeRequest r.word = .buildU r.fbits)

/-- R78: over c1[7:2], each of the six functions occurs once under the tag 11 and Unknown 58 times; Unknown includes
0x00. -/
def Obligations.SixNamedFunctionsAndFiftyEightUnknown : Prop :=
  (∀ u ∈ [ControlFunction.startActivate, .startConfirm, .stopActivate, .stopConfirm, .testActivate, .testConfirm],
    ((List.range 64).filter fun f => functionOf (BitVec.ofNat 8 (4 * f)) = u).length = 1) ∧
  ((List.range 64).filter fun f => functionOf (BitVec.ofNat 8 (4 * f)) = .unknown).length = 58 ∧
  functionOf 0x00#8 = .unknown

/-- R107: `UFN(func)` by equality of the whole byte, 7 otherwise: a byte with another bit set names nothing. -/
def Obligations.FunctionIdentificationByTheWholeByte : Prop :=
  ∀ f : Byte, (functionOf f).code.toNat =
    match [(0x04, 1), (0x08, 2), (0x10, 3), (0x20, 4), (0x40, 5), (0x80, 6)].lookup f.toNat with
    | some n => n
    | none => 7

/-- Words of the opcode table, written out from its rows, decode to the instruction they stand for. -/
def Obligations.WrittenOutWordsDecode : Prop :=
  decodeTableWord 48 0x060000000000 = some (.parse 6#8) ∧
  decodeTableWord 48 0x020000000005 = some (.buildI 1#15 0#15 2#8) ∧
  decodeTableWord 48 0x0000000A0002 = some (.buildS 5#15) ∧
  decodeTableWord 48 0x000400000003 = some (.buildU 0x04#8) ∧
  decodeTableWord 32 0xFFFEFFFE = some (.iFrame 32767#15 32767#15 0#1) ∧
  decodeTableWord 32 0x000A7705 = some (.sFrame 1#6 0x77#8 0#1 5#15) ∧
  decodeTableWord 32 0x00000083 = some (.uTestConfirm 0#24) ∧
  decodeTableWord 32 0x0302010F = some (.uUnknown 3#6 0x030201#24)

/-- Every well-formed instruction is read back from its word by the decoder of its level (R72), with every operand;
and by the whole decoder, but for U_FRAME, whose words the function rows answer (assumption 11). -/
def Obligations.DecodingUndoesEncoding : Prop :=
  ∀ i : Instr, i.wellFormed = true →
    decodeAt i.level i.encode = .ok i ∧ ((∀ f x, i ≠ .uFrame f x) → decode i.encode = i)

/-- Every one of the 2^32 control fields is the word of the row it decodes to, at the class level and at the
function level, and that row is well-formed: no bit of the wire is dropped and no wire encoding is illegal (R77). -/
def Obligations.EncodingUndoesDecodingOfTheWire : Prop :=
  ∀ w : ControlWord, (decodeClass w).encode = .cw w ∧ (decodeClass w).wellFormed = true ∧
    (decodeControl w).encode = .cw w ∧ (decodeControl w).wellFormed = true

/-- R73, R74, R75, R76: each code of the response fields by its name, one value for each code. -/
def Obligations.ResponseFieldCodes : Prop :=
  [Status.ok, .errOversize, .errShort, .reserved].map Status.code = [0b00#2, 0b01#2, 0b10#2, 0b11#2] ∧
  [FrameClass.noClass, .information, .supervisory, .unnumbered].map FrameClass.code =
    [0b00#2, 0b01#2, 0b10#2, 0b11#2] ∧
  [ControlFunction.noFunction, .startActivate, .startConfirm, .stopActivate, .stopConfirm, .testActivate, .testConfirm,
    .unknown].map ControlFunction.code = [0#3, 1#3, 2#3, 3#3, 4#3, 5#3, 6#3, 7#3] ∧
  (∀ w, (Status.ofCode w).code = w) ∧ (∀ w, (FrameClass.ofCode w).code = w) ∧
  (∀ w, (ControlFunction.ofCode w).code = w) ∧ (∀ w, (Checks.ofCode w).code = w) ∧
  (∀ v, Status.ofCode v.code = v) ∧ (∀ v, FrameClass.ofCode v.code = v) ∧
  (∀ v, ControlFunction.ofCode v.code = v) ∧ (∀ v, Checks.ofCode v.code = v) ∧
  (∀ c : Checks, (c.code.toNat % 2 = 1 ↔ c.startBad = true) ∧ (c.code.toNat / 2 % 2 = 1 ↔ c.lenMismatch = true) ∧
    (c.code.toNat / 4 = 1 ↔ c.fixedBad = true))

/-! ### The step -/

/-- A step with a request in flight is the execution of the instruction its request word decodes to (R25, R71). -/
def Obligations.StepRunsTheDecodedRequest : Prop :=
  ∀ s r, s.ready r → step s = exec (decodeRequest r.word) s

/-- A step with no request in flight accepts the oldest issued request, as one snapshot (R50, R51), the last response
staying readable; with nothing issued it waits. That accepting is a step of its own and that waiting changes nothing
are the model's choices (assumptions 4 and 5). -/
def Obligations.IdleStepAcceptsOrWaits : Prop :=
  ∀ s : State, s.config.legal = true → s.inFlight = none →
    (s.issued = [] → step s = .next s) ∧
    (∀ r rest, s.issued = r :: rest → ∃ t, step s = .next t ∧ t.inFlight = some r ∧ t.issued = rest ∧
      t.response = s.response ∧ t.config = s.config)

/-- The next step after `withFetchWord` runs exactly the instruction of the word: a request, or the row a control
field decodes to (R72; assumption 12). -/
def Obligations.PlacedWordIsTheInstructionRun : Prop :=
  ∀ s : State, s.config.legal = true →
    (∀ w : ReqWord, decodeTableWord 48 w.toNat = some (decodeRequest w) ∧
      step (s.withFetchWord 48 w.toNat) = exec (decodeRequest w) (s.withFetchWord 48 w.toNat)) ∧
    (∀ w : ControlWord, decodeTableWord 32 w.toNat = some (decodeControl w) ∧
      step (s.withFetchWord 32 w.toNat) = exec (decodeControl w) (s.withFetchWord 32 w.toNat))

/-- R72: PARSE of an APDU with a whole header is the class row of its control field, and that is the row the second
level decodes to. -/
def Obligations.ParseIsTheRowOfItsControlField : Prop :=
  ∀ s r, s.ready r → 6 ≤ r.ilen.toNat →
    exec (.parse r.ilen) s = exec (decodeClass r.ibuf.header.control) s ∧
    exec (.parse r.ilen) s = exec (decodeControl r.ibuf.header.control) s

/-- R7: a MAX_PAYLOAD outside 0..249 is refused and no operation runs. -/
def Obligations.IllegalMaxPayloadRunsNoOperation : Prop :=
  ∀ s : State, 249 < s.config.maxPayload →
    step s = .refused .illegalMaxPayload ∧ ∀ i, exec i s = .refused .illegalMaxPayload

/-! ### PARSE and the frame rows -/

/-- R101, R202: an APDU shorter than 6 bytes gives ERR_SHORT and nothing else, whatever IBUF holds. -/
def Obligations.ParseOfShortInputIsErrShort : Prop :=
  ∀ s r n, s.ready r → n.toNat < 6 → ∃ p, exec (.parse n) s = .next (s.publish p) ∧
    p.status = .errShort ∧ p.allZeroButStatus

/-- R100: PARSE of an APDU of `n` bytes: ERR_SHORT below 6, and for 6 ≤ n ≤ 255 the split, for every c1. -/
def Obligations.ParseSplitsAndClassifies : Prop :=
  ∀ s r n, s.ready r → ∃ p, exec (.parse n) s = .next (s.publish p) ∧
    (n.toNat < 6 → p.status = .errShort ∧ p.allZeroButStatus) ∧
    (6 ≤ n.toNat → p.splitsApdu n.toNat r.ibuf.header r.ibuf ∧
      (r.ibuf.header.c1.toNat % 2 = 0 →
        p.fieldsOfI (seqValue r.ibuf.header.c1 r.ibuf.header.c2) (seqValue r.ibuf.header.c3 r.ibuf.header.c4)) ∧
      (r.ibuf.header.c1.toNat % 4 = 1 →
        p.fieldsOfS r.ibuf.header (seqValue r.ibuf.header.c3 r.ibuf.header.c4)) ∧
      (r.ibuf.header.c1.toNat % 4 = 3 →
        p.fieldsOfU r.ibuf.header (r.ibuf.header.c1 &&& 0xFC#8) (functionOf (r.ibuf.header.c1 &&& 0xFC#8))))

/-- R104: the I_FRAME row. Its header's control bytes are the two sequence numbers' and the ignored bit. -/
def Obligations.InformationRowGivesItsSequenceNumbers : Prop :=
  ∀ s r ssn rsn g, s.ready r → 6 ≤ r.ilen.toNat → ∃ p, exec (.iFrame ssn rsn g) s = .next (s.publish p) ∧
    p.splitsApdu r.ilen.toNat
      { hstart := r.ibuf.read 0, halen := r.ibuf.read 1, c1 := BitVec.ofNat 8 (2 * ssn.toNat),
        c2 := BitVec.ofNat 8 (ssn.toNat / 128), c3 := BitVec.ofNat 8 (2 * rsn.toNat + g.toNat),
        c4 := BitVec.ofNat 8 (rsn.toNat / 128) } r.ibuf ∧
    p.fieldsOfI ssn.toNat rsn.toNat

/-- R105: the S_FRAME row. Its fixed bits reach only the header capture and FIXED_BAD. -/
def Obligations.SupervisoryRowGivesItsReceiveNumber : Prop :=
  ∀ s r fixedC1 fixedC2 g rsn, s.ready r → 6 ≤ r.ilen.toNat →
    ∃ p h, exec (.sFrame fixedC1 fixedC2 g rsn) s = .next (s.publish p) ∧
      h = { hstart := r.ibuf.read 0, halen := r.ibuf.read 1, c1 := BitVec.ofNat 8 (4 * fixedC1.toNat + 1),
            c2 := fixedC2, c3 := BitVec.ofNat 8 (2 * rsn.toNat + g.toNat),
            c4 := BitVec.ofNat 8 (rsn.toNat / 128) } ∧
      p.splitsApdu r.ilen.toNat h r.ibuf ∧ p.fieldsOfS h rsn.toNat

/-- R106, R107: the U_FRAME row, for every function bits. -/
def Obligations.UnnumberedRowGivesItsFunction : Prop :=
  ∀ s r func fixed, s.ready r → 6 ≤ r.ilen.toNat →
    ∃ p h, exec (.uFrame func fixed) s = .next (s.publish p) ∧
      h = { hstart := r.ibuf.read 0, halen := r.ibuf.read 1, c1 := BitVec.ofNat 8 (4 * func.toNat + 3),
            c2 := fixed.extractLsb' 0 8, c3 := fixed.extractLsb' 8 8, c4 := fixed.extractLsb' 16 8 } ∧
      p.splitsApdu r.ilen.toNat h r.ibuf ∧
      p.fieldsOfU h (BitVec.ofNat 8 (4 * func.toNat)) (functionOf (BitVec.ofNat 8 (4 * func.toNat)))

/-- R160 to R165: the six named functions. For each: its row's word has c1 = f + 3, the row gives `cls = U`,
`func = f` and its `ufn`, and BUILD_U of `f`, `f + 1`, `f + 2` and `f + 3` writes `68 04 c1 00 00 00`. -/
def Obligations.NamedFunctionRows : Prop :=
  ∀ row ∈ [((0x04, ControlFunction.startActivate, Instr.uStartActivate) : Nat × ControlFunction × (BitVec 24 → Instr)),
      (0x08, .startConfirm, .uStartConfirm), (0x10, .stopActivate, .uStopActivate),
      (0x20, .stopConfirm, .uStopConfirm), (0x40, .testActivate, .uTestActivate),
      (0x80, .testConfirm, .uTestConfirm)],
    (∀ fixed : BitVec 24, decodeControl (BitVec.ofNat 32 (256 * fixed.toNat + row.1 + 3)) = row.2.2 fixed) ∧
    (∀ s r fixed, s.ready r → 6 ≤ r.ilen.toNat →
      ∃ p h, exec (row.2.2 fixed) s = .next (s.publish p) ∧
        h = { hstart := r.ibuf.read 0, halen := r.ibuf.read 1, c1 := BitVec.ofNat 8 (row.1 + 3),
              c2 := fixed.extractLsb' 0 8, c3 := fixed.extractLsb' 8 8, c4 := fixed.extractLsb' 16 8 } ∧
        p.splitsApdu r.ilen.toNat h r.ibuf ∧ p.fieldsOfU h (BitVec.ofNat 8 row.1) row.2.1) ∧
    (∀ s r k, s.ready r → k < 4 →
      ∃ p, exec (.buildU (BitVec.ofNat 8 (row.1 + k))) s = .next (s.publish p) ∧
        p.isFrame (BitVec.ofNat 8 (row.1 + 3)) 0#8 0#8 0#8 0 r.ibuf)

/-- R166: every other function value, 58 of them: `status = OK`, `cls = U`, `func = f & 0xFC`, `ufn = 7`; and BUILD_U
of it writes `68 04 (f|03) 00 00 00` and returns OK. -/
def Obligations.UnknownFunctionRow : Prop :=
  ∀ s r func fixed, s.ready r → func.toNat ∉ [1, 2, 4, 8, 16, 32] →
    (Instr.uUnknown func fixed).wellFormed = true ∧
    decodeControl (BitVec.ofNat 32 (256 * fixed.toNat + 4 * func.toNat + 3)) = .uUnknown func fixed ∧
    (6 ≤ r.ilen.toNat → ∃ p h, exec (.uUnknown func fixed) s = .next (s.publish p) ∧
      h = { hstart := r.ibuf.read 0, halen := r.ibuf.read 1, c1 := BitVec.ofNat 8 (4 * func.toNat + 3),
            c2 := fixed.extractLsb' 0 8, c3 := fixed.extractLsb' 8 8, c4 := fixed.extractLsb' 16 8 } ∧
      p.splitsApdu r.ilen.toNat h r.ibuf ∧ p.fieldsOfU h (BitVec.ofNat 8 (4 * func.toNat)) .unknown) ∧
    (∀ k, k < 4 → ∃ p, exec (.buildU (BitVec.ofNat 8 (4 * func.toNat + k))) s = .next (s.publish p) ∧
      p.isFrame (BitVec.ofNat 8 (4 * func.toNat + 3)) 0#8 0#8 0#8 0 r.ibuf)

/-- A frame row on an APDU shorter than its header takes the error PARSE takes (R101; the model's reading of a frame
row, assumption 10). -/
def Obligations.FrameRowOfShortInputIsErrShort : Prop :=
  ∀ i s r, isFrameRow i = true → s.ready r → r.ilen.toNat < 6 → ∃ p, exec i s = .next (s.publish p) ∧
    p.status = .errShort ∧ p.allZeroButStatus

/-- R109: a length byte that disagrees changes no output but `halen` and `chk[1]`. -/
def Obligations.LengthByteReachesOnlyTheCheck : Prop :=
  ∀ s s' r r' n p p', s.ready r → s'.ready r' → (∀ a, a ≠ 1 → r.ibuf.read a = r'.ibuf.read a) →
    exec (.parse n) s = .next (s.publish p) → exec (.parse n) s' = .next (s'.publish p') →
    p = { p' with halen := p.halen, chk := { p'.chk with lenMismatch := p.chk.lenMismatch } }

/-! ### The builders -/

/-- R130: BUILD_I: within the limit the I frame with the two sequence numbers and the payload, above it
ERR_OVERSIZE. -/
def Obligations.BuildIWritesTheInformationFrame : Prop :=
  ∀ s r ssn rsn l, s.ready r → ∃ p, exec (.buildI ssn rsn l) s = .next (s.publish p) ∧
    (l.toNat ≤ s.config.maxPayload →
      p.isFrame (BitVec.ofNat 8 (2 * ssn.toNat)) (BitVec.ofNat 8 (ssn.toNat / 128))
        (BitVec.ofNat 8 (2 * rsn.toNat)) (BitVec.ofNat 8 (rsn.toNat / 128)) l.toNat r.ibuf) ∧
    (s.config.maxPayload < l.toNat → p.status = .errOversize ∧ p.allZeroButStatus)

/-- R131, R201: a payload above MAX_PAYLOAD gives ERR_OVERSIZE and no frame. -/
def Obligations.BuildIOfOversizePayloadIsErrOversize : Prop :=
  ∀ s r ssn rsn l, s.ready r → s.config.maxPayload < l.toNat →
    ∃ p, exec (.buildI ssn rsn l) s = .next (s.publish p) ∧ p.status = .errOversize ∧ p.allZeroButStatus

/-- R137: `L = MAX_PAYLOAD` returns OK and `L = MAX_PAYLOAD + 1` ERR_OVERSIZE, at every legal MAX_PAYLOAD. -/
def Obligations.BuildIAtTheBoundary : Prop :=
  ∀ s r ssn rsn, s.ready r →
    (∃ p, exec (.buildI ssn rsn (BitVec.ofNat 8 s.config.maxPayload)) s = .next (s.publish p) ∧ p.status = .ok) ∧
    (∃ p, exec (.buildI ssn rsn (BitVec.ofNat 8 (s.config.maxPayload + 1))) s = .next (s.publish p) ∧
      p.status = .errOversize)

/-- R132: BUILD_S writes `68 04 01 00` and the receive number; it cannot fail. -/
def Obligations.BuildSWritesTheSupervisoryFrame : Prop :=
  ∀ s r rsn, s.ready r → ∃ p, exec (.buildS rsn) s = .next (s.publish p) ∧
    p.isFrame 0x01#8 0x00#8 (BitVec.ofNat 8 (2 * rsn.toNat)) (BitVec.ofNat 8 (rsn.toNat / 128)) 0 r.ibuf

/-- R133, R139: BUILD_U writes `68 04 (fbits|03) 00 00 00` for every `fbits`; it cannot fail. -/
def Obligations.BuildUWritesTheUnnumberedFrame : Prop :=
  ∀ s r fbits, s.ready r → ∃ p, exec (.buildU fbits) s = .next (s.publish p) ∧
    p.isFrame (BitVec.ofNat 8 (4 * (fbits.toNat / 4) + 3)) 0#8 0#8 0#8 0 r.ibuf

/-- R134: every frame a builder writes starts with 0x68, and its length byte equals its total length minus 2. -/
def Obligations.BuiltFrameHeaderConstants : Prop :=
  ∀ s t r p, s.ready r → r.op ≠ 0b00#2 → step s = .next t → t.response = some p → p.status = .ok →
    p.obuf.read 0 = 0x68#8 ∧ (p.obuf.read 1).toNat = p.olen.toNat - 2 ∧ 6 ≤ p.olen.toNat

/-- R58: payloads are copied verbatim, by PARSE to OBUF 0 and by BUILD_I to OBUF 6. -/
def Obligations.PayloadsAreCopiedVerbatim : Prop :=
  ∀ s r p, s.ready r →
    (∀ n, exec (.parse n) s = .next (s.publish p) → ∀ i, i < n.toNat - 6 → p.obuf.read i = r.ibuf.read (6 + i)) ∧
    (∀ ssn rsn l, exec (.buildI ssn rsn l) s = .next (s.publish p) → p.status = .ok →
      ∀ i, i < l.toNat → p.obuf.read (6 + i) = r.ibuf.read i)

/-- R135: PARSE of a built I frame recovers the sequence numbers and the payload, with `chk = 0`. -/
def Obligations.InformationFrameRoundTrip : Prop :=
  ∀ s s' r b ssn rsn l x y z, s.ready r → l.toNat ≤ s.config.maxPayload →
    exec (.buildI ssn rsn l) s = .next (s.publish b) → s'.ready (Request.parseOf b x y z) →
    ∃ p, step s' = .next (s'.publish p) ∧ p.status = .ok ∧ p.cls = .information ∧ p.ssn = ssn ∧ p.rsn = rsn ∧
      (∀ i, p.obuf.read i = if i < l.toNat then r.ibuf.read i else 0#8) ∧ p.olen = l ∧ p.chk.code = 0#3

/-- R136: PARSE of a built S or U frame recovers the receive number, or the function code, with `olen = 0` and
`chk = 0`. -/
def Obligations.SupervisoryAndUnnumberedRoundTrip : Prop :=
  ∀ s s' r b x y z, s.ready r → s'.ready (Request.parseOf b x y z) →
    (∀ rsn, exec (.buildS rsn) s = .next (s.publish b) →
      ∃ p, step s' = .next (s'.publish p) ∧ p.status = .ok ∧ p.olen = 0#8 ∧ p.chk.code = 0#3 ∧
        p.cls = .supervisory ∧ p.rsn = rsn) ∧
    (∀ f, exec (.buildU f) s = .next (s.publish b) →
      ∃ p, step s' = .next (s'.publish p) ∧ p.status = .ok ∧ p.olen = 0#8 ∧ p.chk.code = 0#3 ∧
        p.cls = .unnumbered ∧ p.func = f &&& 0xFC#8 ∧
        (f ∈ [0x04#8, 0x08#8, 0x10#8, 0x20#8, 0x40#8, 0x80#8] → p.func = f ∧ p.ufn = functionOf f ∧
          p.ufn ≠ .unknown))

/-! ### Every instruction -/

/-- Every row of the opcode table completes, in every state with a request in flight under a legal configuration:
no access leaves a buffer (R40, R41) and nothing is illegal (R71, R77). -/
def Obligations.EveryInstructionCompletes : Prop :=
  ∀ i s r, s.ready r → ∃ p, exec i s = .next (s.publish p)

/-- The frame of every instruction: MAX_PAYLOAD (R23) and the caller's requests with their IBUF (R24) are unchanged;
the request in flight is consumed and exactly the response is new (R50). -/
def Obligations.ExecutionTouchesOnlyItsTransaction : Prop :=
  ∀ i s t, exec i s = .next t →
    t.config = s.config ∧ t.issued = s.issued ∧ t.inFlight = none ∧ s.inFlight.isSome = true ∧
    ∃ p, t.response = some p ∧ ∀ old, exec i { s with response := old } = .next t

/-- R42: every operation defines every OBUF byte: zero at and above `olen`, and nothing is listed outside 0..254. -/
def Obligations.ObufIsZeroAboveItsLength : Prop :=
  ∀ i s t p, exec i s = .next t → t.response = some p →
    p.obuf.wf = true ∧ ∀ a, p.olen.toNat ≤ a → p.obuf.read a = 0#8

/-- R30: the fields the operation, the class or the outcome gives no meaning are zero. -/
def Obligations.MeaninglessFieldsAreZero : Prop :=
  ∀ i s t p, exec i s = .next t → t.response = some p →
    (p.status ≠ .ok → p.allZeroButStatus) ∧
    (i.level = .operation → (∀ n, i ≠ .parse n) → p.parseFieldsZero) ∧
    (p.cls = .supervisory → p.ssn = 0#15 ∧ p.func = 0#8 ∧ p.ufn = .noFunction) ∧
    (p.cls = .unnumbered → p.ssn = 0#15 ∧ p.rsn = 0#15) ∧
    (p.cls = .information → p.func = 0#8 ∧ p.ufn = .noFunction) ∧
    (∀ a, p.olen.toNat ≤ a → p.obuf.read a = 0#8)

/-- R200, R205: exactly two error outcomes, each with its one cause and no information beyond its code; every other
outcome is OK. -/
def Obligations.ExactlyTwoErrorOutcomes : Prop :=
  ∀ s r, s.ready r → ∃ p, step s = .next (s.publish p) ∧
    (p.status = .errOversize ↔ r.op = 0b01#2 ∧ s.config.maxPayload < r.ilen.toNat) ∧
    (p.status = .errShort ↔ r.op = 0b00#2 ∧ r.ilen.toNat < 6) ∧
    p.status ≠ .reserved ∧ (p.status ≠ .ok → p.allZeroButStatus)

/-- R203: an error response has its code, one of the two of R200, and every other field zero. -/
def Obligations.ErrorResponseIsZeroButForItsCode : Prop :=
  ∀ s t p, step s = .next t → s.inFlight.isSome = true → t.response = some p → p.status ≠ .ok →
    (p.status = .errOversize ∨ p.status = .errShort) ∧ p.cls = .noClass ∧ p.olen = 0#8 ∧ p.obuf = [] ∧ p.allZeroButStatus

/-! ### Transactions, ordering, reset -/

/-- R5: every output of an operation is a function of its request and MAX_PAYLOAD alone: whatever else the state
holds, the response is the one a codec with nothing else gives. -/
def Obligations.ResponseIsAFunctionOfRequestAndMaxPayload : Prop :=
  ∀ s r, s.ready r → ∃ p, step s = .next (s.publish p) ∧ respondAlone s.config r = some p

/-- R50: the request is one snapshot at acceptance, the response one snapshot at publication: the last response stays
as it is until then, and whatever becomes of the caller's requests in between does not affect the operation. -/
def Obligations.RequestIsSampledAtAcceptance : Prop :=
  ∀ s r rest, s.config.legal = true → s.inFlight = none → s.issued = r :: rest →
    ∃ t p, step s = .next t ∧ t.response = s.response ∧ respondAlone s.config r = some p ∧
      ∀ later, ∃ u, step { t with issued := later } = .next u ∧ u.response = some p ∧ u.issued = later

/-- R41: IBUF bytes at or above `ilen` cannot change any output, nor can fields the operation does not use (R21). -/
def Obligations.UnusedInputsChangeNothing : Prop :=
  ∀ c r r', c.legal = true → r.agree r' → respondAlone c r = respondAlone c r' ∧ (respondAlone c r).isSome = true

/-- R111: PARSE does not apply MAX_PAYLOAD, and BUILD_S and BUILD_U read no configuration (R132, R133). -/
def Obligations.OnlyBuildIReadsMaxPayload : Prop :=
  ∀ c c' r, c.legal = true → c'.legal = true → r.op ≠ 0b01#2 → respondAlone c r = respondAlone c' r

/-- R51: without a reset, the responses of any interleaving of the caller and the codec are, in issue order, those of
each request performed alone; and a codec that is left to run publishes one for every request that is pending, after
finitely many steps (R229). That the codec completes in steps is the model's choice (assumption 4), and so are runs as
events one at a time (assumption 18). -/
def Obligations.ResponsesComeInIssueOrder : Prop :=
  ∀ s : State, s.config.legal = true →
    (∀ es, Event.reset ∉ es →
      (responses es s).map some <+: (s.pending ++ issuedIn es).map (respondAlone s.config)) ∧
    (∃ n, ∀ k, n ≤ k →
      (responses (List.replicate k .codec) s).map some = s.pending.map (respondAlone s.config))

/-- R209: the request after an erroring request is performed exactly as if the error had not happened. -/
def Obligations.ErrorsAreNotSticky : Prop :=
  ∀ s r r' rest p, s.ready r → s.issued = r' :: rest → respondAlone s.config r = some p → p.status ≠ .ok →
    ∃ p', respondAlone s.config r' = some p' ∧ responses [.codec, .codec, .codec] s = [p, p']

/-- R220: a reset discards the request in flight, which never gets a response; no response is readable; nothing
before the reset matters but what the caller still has to have accepted; the codec is ready to accept. That a reset
leaves the requests not yet accepted with the caller is the model's choice (assumption 6). -/
def Obligations.ResetDiscardsTheRequestInFlight : Prop :=
  ∀ s : State, s.config.legal = true →
    s.applyReset.inFlight = none ∧ s.applyReset.response = none ∧
    (∀ q old, ({ s with inFlight := q, response := old } : State).applyReset = s.applyReset) ∧
    (∀ r rest, s.issued = r :: rest → step s.applyReset = .next (s.applyReset.accept r rest)) ∧
    (∀ es, ((responses es s.applyReset).map some).Sublist ((s.issued ++ issuedIn es).map (respondAlone s.config)))

/-- R29: after reset no request copy is held, no response exists until the first request after reset has completed,
and MAX_PAYLOAD is the instantiation value. -/
def Obligations.NoResponseUntilTheFirstCompletion : Prop :=
  ∀ s : State, s.applyReset.config = s.config ∧ s.applyReset.inFlight = none ∧
    ∀ es t, runEvents es s.applyReset = .next t → responses es s.applyReset = [] →
      t.response = none

/-- R23, R221: no event, a reset among them, changes MAX_PAYLOAD. -/
def Obligations.MaxPayloadNeverChanges : Prop :=
  ∀ es s t, runEvents es s = .next t → t.config = s.config

/-- R52: neither of two codecs changes the other, and so their events commute. That several codecs are a list with one
event at a time is the model's reading (assumption 16); the statement tests that reading, `eventAt`, and would hold
whatever one codec did. -/
def Obligations.CodecsAreIndependent : Prop :=
  ∀ i j e f codecs a b, i ≠ j → eventAt i e codecs = .next a → eventAt j f codecs = .next b →
    a[j]? = codecs[j]? ∧ b[i]? = codecs[i]? ∧ ∃ c, eventAt j f a = .next c ∧ eventAt i e b = .next c

/-- What a caller finds when it reads: a fault where no response exists (R29), a refusal of the reserved status
(R73), else the response. That these two are a fault and a refusal is the model's choice (assumption 14). -/
def Obligations.ReadingTheResponse : Prop :=
  ∀ s : State, (s.response = none → s.readResponse = .fault .noResponse) ∧
    ∀ p, s.response = some p → (p.status = .reserved → s.readResponse = .refused .reservedStatus) ∧
      (p.status ≠ .reserved → s.readResponse = .next p)

/-- A caller that keeps its duties (R223, R224, R226) sees no ERR_SHORT (R200, R202, R205), no LEN_MISMATCH (R110), and builds only
frames of the six functions (R133, R160 to R165). -/
def Obligations.DutifulCallerSeesNoLengthError : Prop :=
  ∀ s r, s.ready r → r.dutiful → ∃ p, step s = .next (s.publish p) ∧ p.status ≠ .errShort ∧
    (r.op = 0b00#2 → p.status = .ok ∧ p.chk.lenMismatch = false) ∧
    (r.op = 0b11#2 → functionOf (funcOf (p.obuf.read 2)) ≠ .unknown)

/-! ### The invariant -/

/-- Every step keeps the invariant: a legal MAX_PAYLOAD (R7), canonical buffers of existing addresses (R40), and a
consistent response: no reserved status (R73), zero fill (R30, R42, R203), the class and fields of its header (R61,
R104 to R107) or a whole frame (R134). -/
def Obligations.EveryStepKeepsTheInvariant : Prop :=
  ∀ s t : State, s.Inv → step s = .next t → t.Inv

/-- The caller's issue of a request with a canonical IBUF, and a reset, keep the invariant too. -/
def Obligations.EveryEventKeepsTheInvariant : Prop :=
  ∀ e s t, s.Inv → (∀ r, e = .issue r → r.ibuf.wf = true) → applyEvent e s = .next t → t.Inv

/-- The state after reset meets the invariant, holds no request and no response (R29), and is the default instantiation
(R6). That it is the default one, and that no request is issued in it, are the model's choices (assumptions 2 and 6). -/
def Obligations.ResetMeetsTheInvariant : Prop :=
  State.reset.Inv ∧ State.reset.inFlight = none ∧ State.reset.response = none ∧ State.reset.issued = [] ∧
    State.reset.config.maxPayload = 249

/-! ### The assembler -/

/-- R81: each pseudo-instruction is one `BUILD_U` with the source's function value, its unused fields 0 (R70). -/
def Obligations.PseudoInstructionsAreBuildU : Prop :=
  ∀ row ∈ [((AsmPseudo.startact, 0x04) : AsmPseudo × Nat), (.startcon, 0x08), (.stopact, 0x10), (.stopcon, 0x20),
      (.testact, 0x40), (.testcon, 0x80)],
    row.1.expand = .buildU row.2 ∧
    ∃ r, row.1.expand.assemble = .ok r ∧ decodeRequest r.word = .buildU (BitVec.ofNat 8 row.2) ∧
      (Instr.buildU (BitVec.ofNat 8 row.2)).encode = .reqw r.word ∧ r.ibuf = []

/-- The statements of R80: what each assembles to, its unused fields 0 (R70: the word is the operation's encoding) and
its IBUF the bytes of the list, and which operands the assembler refuses. Which refusal comes first where two apply is
the model's choice (assumption 17). -/
def Obligations.AssemblerStatements : Prop :=
  (∀ bytes : List Byte, (255 < bytes.length → (AsmStatement.parse bytes).assemble = .error .listTooLong) ∧
    (bytes.length ≤ 255 → ∃ r, (AsmStatement.parse bytes).assemble = .ok r ∧
      decodeRequest r.word = .parse (BitVec.ofNat 8 bytes.length) ∧
      (Instr.parse (BitVec.ofNat 8 bytes.length)).encode = .reqw r.word ∧ r.ibuf.wf = true ∧
      (∀ a, r.ibuf.read a = bytes.getD a 0#8) ∧ r.listing = (r.word, bytes))) ∧
  (∀ ssn rsn (payload : List Byte),
    (32767 < ssn ∨ 32767 < rsn → (AsmStatement.buildI ssn rsn payload).assemble = .error .sequenceTooLarge) ∧
    (ssn ≤ 32767 → rsn ≤ 32767 → 255 < payload.length →
      (AsmStatement.buildI ssn rsn payload).assemble = .error .listTooLong) ∧
    (ssn ≤ 32767 → rsn ≤ 32767 → payload.length ≤ 255 →
      ∃ r, (AsmStatement.buildI ssn rsn payload).assemble = .ok r ∧
        decodeRequest r.word = .buildI (BitVec.ofNat 15 ssn) (BitVec.ofNat 15 rsn) (BitVec.ofNat 8 payload.length) ∧
        (Instr.buildI (BitVec.ofNat 15 ssn) (BitVec.ofNat 15 rsn) (BitVec.ofNat 8 payload.length)).encode =
          .reqw r.word ∧
        r.ibuf.wf = true ∧ (∀ a, r.ibuf.read a = payload.getD a 0#8) ∧ r.listing = (r.word, payload))) ∧
  (∀ rsn, (32767 < rsn → (AsmStatement.buildS rsn).assemble = .error .sequenceTooLarge) ∧
    (rsn ≤ 32767 → ∃ r, (AsmStatement.buildS rsn).assemble = .ok r ∧
      decodeRequest r.word = .buildS (BitVec.ofNat 15 rsn) ∧
      (Instr.buildS (BitVec.ofNat 15 rsn)).encode = .reqw r.word ∧ r.ibuf = [])) ∧
  (∀ f, (0xFF < f → (AsmStatement.buildU f).assemble = .error .functionBitsTooLarge) ∧
    (f ≤ 0xFF → ∃ r, (AsmStatement.buildU f).assemble = .ok r ∧ decodeRequest r.word = .buildU (BitVec.ofNat 8 f) ∧
      (Instr.buildU (BitVec.ofNat 8 f)).encode = .reqw r.word ∧ r.ibuf = []))
end

