-- ==== Sys2Proof/Laws/Bits.lean ====
section
/-! SUPPORT. The fields of the two words and of the sequence numbers, bit by bit: what a reader of a field finds
after a writer of it. -/

namespace Sys2Proof

theorem c1Of_controlWord (a b c d : Byte) : c1Of (controlWord a b c d) = a := by
  ext i hi; simp only [c1Of, controlWord, field]; interval_cases i <;> simp

theorem c2Of_controlWord (a b c d : Byte) : c2Of (controlWord a b c d) = b := by
  ext i hi; simp only [c2Of, controlWord, field]; interval_cases i <;> simp

theorem c3Of_controlWord (a b c d : Byte) : c3Of (controlWord a b c d) = c := by
  ext i hi; simp only [c3Of, controlWord, field]; interval_cases i <;> simp

theorem c4Of_controlWord (a b c d : Byte) : c4Of (controlWord a b c d) = d := by
  ext i hi; simp only [c4Of, controlWord, field]; interval_cases i <;> simp

theorem controlWord_of_bytes (w : ControlWord) : controlWord (c1Of w) (c2Of w) (c3Of w) (c4Of w) = w := by
  ext i hi
  simp only [c1Of, c2Of, c3Of, c4Of, controlWord, field]
  interval_cases i <;> simp

/-- The fields of a control field that lie inside one byte are that byte's. -/
theorem bit0_controlWord (a b c d : Byte) : (controlWord a b c d).extractLsb' 0 1 = a.extractLsb' 0 1 := by
  ext i hi; simp only [controlWord, field]; interval_cases i; simp

theorem tag_controlWord (a b c d : Byte) : (controlWord a b c d).extractLsb' 0 2 = a.extractLsb' 0 2 := by
  ext i hi; simp only [controlWord, field]; interval_cases i <;> simp

theorem func_controlWord (a b c d : Byte) : (controlWord a b c d).extractLsb' 2 6 = a.extractLsb' 2 6 := by
  ext i hi; simp only [controlWord, field]; interval_cases i <;> simp

theorem ignored_controlWord (a b c d : Byte) : (controlWord a b c d).extractLsb' 16 1 = c.extractLsb' 0 1 := by
  ext i hi; simp only [controlWord, field]; interval_cases i; simp

/-- Bit 0 of the low byte of a sequence number is the bit put there. -/
theorem bit0_seqLow (s : Seq) (g : BitVec 1) : (seqLow s ||| field 8 0 g).extractLsb' 0 1 = g := by
  ext i hi; simp only [seqLow, field]; interval_cases i; simp

theorem bit0_seqLow_zero (s : Seq) : (seqLow s).extractLsb' 0 1 = 0#1 := by
  ext i hi; simp only [seqLow]; interval_cases i; simp

/-- The split of a sequence number is undone by its assembly, whatever the unused bit 0 of the low byte holds. -/
theorem seqOf_split (s : Seq) (g : BitVec 1) : seqOf (seqLow s ||| field 8 0 g) (seqHigh s) = s := by
  ext i hi; simp only [seqOf, seqLow, seqHigh, field]; interval_cases i <;> simp

theorem seqOf_split_zero (s : Seq) : seqOf (seqLow s) (seqHigh s) = s := by
  ext i hi; simp only [seqOf, seqLow, seqHigh]; interval_cases i <;> simp

/-- The assembly of two bytes is undone by the split, with bit 0 of the low byte put back. -/
theorem seqLow_seqOf (l h : Byte) : seqLow (seqOf l h) ||| field 8 0 (l.extractLsb' 0 1) = l := by
  ext i hi; simp only [seqOf, seqLow, field]; interval_cases i <;> simp

theorem seqHigh_seqOf (l h : Byte) : seqHigh (seqOf l h) = h := by
  ext i hi; simp only [seqOf, seqHigh]; interval_cases i <;> simp

theorem op_requestWord (op : BitVec 2) (ssn rsn : Seq) (fbits ilen : Byte) :
    (requestWord op ssn rsn fbits ilen).extractLsb' 0 2 = op := by
  ext i hi; simp only [requestWord, field]; interval_cases i <;> simp

theorem ssn_requestWord (op : BitVec 2) (ssn rsn : Seq) (fbits ilen : Byte) :
    (requestWord op ssn rsn fbits ilen).extractLsb' 2 15 = ssn := by
  ext i hi; simp only [requestWord, field]; interval_cases i <;> simp

theorem rsn_requestWord (op : BitVec 2) (ssn rsn : Seq) (fbits ilen : Byte) :
    (requestWord op ssn rsn fbits ilen).extractLsb' 17 15 = rsn := by
  ext i hi; simp only [requestWord, field]; interval_cases i <;> simp

theorem fbits_requestWord (op : BitVec 2) (ssn rsn : Seq) (fbits ilen : Byte) :
    (requestWord op ssn rsn fbits ilen).extractLsb' 32 8 = fbits := by
  ext i hi; simp only [requestWord, field]; interval_cases i <;> simp

theorem ilen_requestWord (op : BitVec 2) (ssn rsn : Seq) (fbits ilen : Byte) :
    (requestWord op ssn rsn fbits ilen).extractLsb' 40 8 = ilen := by
  ext i hi; simp only [requestWord, field]; interval_cases i <;> simp

theorem tag_uControl (func : BitVec 6) (fixed : BitVec 24) : (uControl func fixed).extractLsb' 0 2 = 0b11#2 := by
  ext i hi; simp only [uControl, field]; interval_cases i <;> simp

theorem func_uControl (func : BitVec 6) (fixed : BitVec 24) : (uControl func fixed).extractLsb' 2 6 = func := by
  ext i hi; simp only [uControl, field]; interval_cases i <;> simp

theorem fixed_uControl (func : BitVec 6) (fixed : BitVec 24) : (uControl func fixed).extractLsb' 8 24 = fixed := by
  ext i hi; simp only [uControl, field]; interval_cases i <;> simp

/-- The first byte of a U frame: the function bits over the tag 11. -/
theorem c1Of_uControl (func : BitVec 6) (fixed : BitVec 24) :
    c1Of (uControl func fixed) = field 8 2 func ||| 0b11#8 := by
  ext i hi; simp only [c1Of, uControl, field]; interval_cases i <;> simp

/-- A control field with the tag 11 is the U frame of its function bits and fixed bytes. -/
theorem uControl_of_fields (w : ControlWord) (h : w.extractLsb' 0 2 = 0b11#2) :
    uControl (w.extractLsb' 2 6) (w.extractLsb' 8 24) = w := by
  have h0 : w[0] = true := by have := congrArg (·[0]) h; simpa using this
  have h1 : w[1] = true := by have := congrArg (·[1]) h; simpa using this
  ext i hi
  simp only [uControl, field]
  interval_cases i <;> simp [h0, h1]

/-- The fields of the first byte of an S frame. -/
theorem sFrame_byte : ∀ f : BitVec 6, (field 8 2 f ||| 0b01#8).extractLsb' 0 1 ≠ 0#1 ∧
    (field 8 2 f ||| 0b01#8).extractLsb' 0 2 = 0b01#2 ∧ (field 8 2 f ||| 0b01#8).extractLsb' 2 6 = f := by decide

/-- Function bits that are none of the six named ones give a first byte that is none of the six rows' bytes. -/
theorem unknown_byte : ∀ func : BitVec 6, namedFunctionBits.contains func = false →
    (field 8 2 func ||| 0b11#8).toNat ∉ [0x07, 0x0B, 0x13, 0x23, 0x43, 0x83] := by decide

end Sys2Proof
end

