-- ==== Sys2Proof/Laws/Memory.lean ====
section
/-! SUPPORT. The buffers: reading after writing, the canonical form and that every operation keeps it, and what the
copy loop and the header writer leave behind. -/

namespace Sys2Proof.Machine

@[simp] theorem Memory.read_nil (a : Nat) : Memory.read [] a = 0#8 := rfl

/-- No address below the first listed one is listed. -/
theorem Memory.read_below {m : Memory} {lo a : Nat} (h : Memory.wfFrom lo m = true) (ha : a < lo) : m.read a = 0#8 := by
  induction m generalizing lo with
  | nil => rfl
  | cons c m ih =>
    obtain ⟨k, v⟩ := c
    simp only [Memory.wfFrom, Bool.and_eq_true, decide_eq_true_eq] at h
    have hk : a ≠ k := by omega
    simp only [Memory.read, hk, if_false]
    exact ih h.2 (by omega)

theorem Memory.wfFrom_mono {m : Memory} {lo lo' : Nat} (h : Memory.wfFrom lo m = true) (hlo : lo' ≤ lo) :
    Memory.wfFrom lo' m = true := by
  cases m with
  | nil => rfl
  | cons c m =>
    obtain ⟨k, v⟩ := c
    simp only [Memory.wfFrom, Bool.and_eq_true, decide_eq_true_eq] at h ⊢
    exact ⟨⟨⟨by omega, h.1.1.2⟩, h.1.2⟩, h.2⟩

/-- A read after a write: the value written there, the old value elsewhere. -/
theorem Memory.read_write_from {m : Memory} {lo : Nat} (h : Memory.wfFrom lo m = true) (a b : Nat) (v : Byte) :
    (m.write a v).read b = if b = a then v else m.read b := by
  induction m generalizing lo with
  | nil => by_cases hv : v = 0#8 <;> simp [Memory.write, Memory.read, hv]
  | cons c m ih =>
    obtain ⟨k, w⟩ := c
    simp only [Memory.wfFrom, Bool.and_eq_true, decide_eq_true_eq] at h
    have below : ∀ x, x ≤ k → Memory.read m x = 0#8 := fun x hx => Memory.read_below h.2 (by omega)
    have ih := ih h.2
    rcases Nat.lt_trichotomy a k with h1 | h1 | h1
    · by_cases hv : v = 0#8
      · by_cases hb : b = a
        · simp only [Memory.write, h1, hv, if_true, Memory.read, hb]
          rw [if_neg (by omega), below a (by omega)]
        · simp [Memory.write, h1, hv, hb]
      · simp [Memory.write, h1, hv, Memory.read]
    · subst h1
      by_cases hv : v = 0#8
      · by_cases hb : b = a
        · simp [Memory.write, hv, hb, below a le_rfl]
        · simp [Memory.write, hv, hb, Memory.read]
      · by_cases hb : b = a <;> simp [Memory.write, hv, hb, Memory.read]
    · have hak : ¬ a < k := by omega
      have hne : a ≠ k := by omega
      by_cases hb : b = k
      · simp [Memory.write, hak, hne, hb, Memory.read, Ne.symm hne]
      · simp [Memory.write, hak, hne, hb, Memory.read, ih]

theorem Memory.wfFrom_write {m : Memory} {lo : Nat} (h : Memory.wfFrom lo m = true) {a : Nat} (hlo : lo ≤ a)
    (ha : a < 255) (v : Byte) : Memory.wfFrom lo (m.write a v) = true := by
  induction m generalizing lo with
  | nil => by_cases hv : v = 0#8 <;> simp [Memory.write, Memory.wfFrom, hv, hlo, ha]
  | cons c m ih =>
    obtain ⟨k, w⟩ := c
    have h' := h
    simp only [Memory.wfFrom, Bool.and_eq_true, decide_eq_true_eq] at h
    simp only [Memory.write]
    split_ifs with h1 hv h2 hv
    · exact h'
    · simp only [Memory.wfFrom, Bool.and_eq_true, decide_eq_true_eq]
      exact ⟨⟨⟨hlo, ha⟩, hv⟩, ⟨⟨by omega, h.1.1.2⟩, h.1.2⟩, h.2⟩
    · exact Memory.wfFrom_mono h.2 (by omega)
    · simp only [Memory.wfFrom, Bool.and_eq_true, decide_eq_true_eq]
      exact ⟨⟨h.1.1, hv⟩, h.2⟩
    · simp only [Memory.wfFrom, Bool.and_eq_true, decide_eq_true_eq]
      exact ⟨h.1, ih h.2 (by omega)⟩

/-- Canonical memories that read the same are the same. -/
theorem Memory.ext_of_read_from {m m' : Memory} {lo lo' : Nat} (h : Memory.wfFrom lo m = true)
    (h' : Memory.wfFrom lo' m' = true) (hr : ∀ a, m.read a = m'.read a) : m = m' := by
  induction m generalizing lo lo' m' with
  | nil =>
    cases m' with
    | nil => rfl
    | cons c m' =>
      obtain ⟨k, v⟩ := c
      simp only [Memory.wfFrom, Bool.and_eq_true, decide_eq_true_eq] at h'
      have := hr k
      simp only [Memory.read, if_true] at this
      exact absurd this.symm h'.1.2
  | cons c m ih =>
    obtain ⟨k, v⟩ := c
    have hm := h
    simp only [Memory.wfFrom, Bool.and_eq_true, decide_eq_true_eq] at h
    cases m' with
    | nil =>
      have := hr k
      simp only [Memory.read, if_true] at this
      exact absurd this h.1.2
    | cons c' m' =>
      obtain ⟨k', v'⟩ := c'
      have hm' := h'
      simp only [Memory.wfFrom, Bool.and_eq_true, decide_eq_true_eq] at h'
      have keys : k = k' := by
        rcases Nat.lt_trichotomy k k' with hlt | heq | hgt
        · have h1 := hr k
          have h2 : Memory.read m' k = 0#8 := Memory.read_below h'.2 (by omega)
          simp only [Memory.read, if_true, Nat.ne_of_lt hlt, if_false, h2] at h1
          exact absurd h1 h.1.2
        · exact heq
        · have h1 := hr k'
          have h2 : Memory.read m k' = 0#8 := Memory.read_below h.2 (by omega)
          simp only [Memory.read, if_true, Nat.ne_of_lt hgt, if_false, h2] at h1
          exact absurd h1.symm h'.1.2
      subst keys
      have hv : v = v' := by simpa [Memory.read] using hr k
      subst hv
      have : m = m' := ih h.2 h'.2 fun a => by
        by_cases hk : a = k
        · subst hk
          rw [Memory.read_below h.2 (Nat.lt_succ_self a), Memory.read_below h'.2 (Nat.lt_succ_self a)]
        · simpa [Memory.read, hk] using hr a
      rw [this]

theorem Memory.wf_nil : Memory.wf [] = true := rfl

theorem Memory.read_write {m : Memory} (h : m.wf = true) (a b : Nat) (v : Byte) :
    (m.write a v).read b = if b = a then v else m.read b := Memory.read_write_from h a b v

theorem Memory.wf_write {m : Memory} (h : m.wf = true) {a : Nat} (ha : a < 255) (v : Byte) :
    (m.write a v).wf = true := Memory.wfFrom_write h (Nat.zero_le a) ha v

theorem Memory.ext_of_read {m m' : Memory} (h : m.wf = true) (h' : m'.wf = true)
    (hr : ∀ a, m.read a = m'.read a) : m = m' := Memory.ext_of_read_from h h' hr

theorem Memory.read_ofBytesFrom (bytes : List Byte) (lo a : Nat) :
    (Memory.ofBytesFrom lo bytes).read a = if lo ≤ a then bytes.getD (a - lo) 0#8 else 0#8 := by
  induction bytes generalizing lo with
  | nil => simp [Memory.ofBytesFrom]
  | cons v vs ih =>
    have tail : (Memory.ofBytesFrom (lo + 1) vs).read a = if lo + 1 ≤ a then vs.getD (a - (lo + 1)) 0#8 else 0#8 :=
      ih (lo + 1)
    by_cases ha : a = lo
    · subst ha
      by_cases hv : v = 0#8
      · simp [Memory.ofBytesFrom, hv, tail]
      · simp [Memory.ofBytesFrom, hv, Memory.read]
    · have rest : (Memory.ofBytesFrom lo (v :: vs)).read a = (Memory.ofBytesFrom (lo + 1) vs).read a := by
        by_cases hv : v = 0#8 <;> simp [Memory.ofBytesFrom, hv, Memory.read, ha]
      rw [rest, tail]
      by_cases hlo : lo + 1 ≤ a
      · have e : a - lo = (a - (lo + 1)) + 1 := by omega
        simp [hlo, show lo ≤ a by omega, e]
      · simp [hlo, show ¬ lo ≤ a by omega]

/-- The buffer of a list of bytes holds them from address 0 on, and zero after them. -/
theorem Memory.read_ofBytes (bytes : List Byte) (a : Nat) : (Memory.ofBytes bytes).read a = bytes.getD a 0#8 := by
  simp [Memory.ofBytes, Memory.read_ofBytesFrom]

theorem Memory.wfFrom_ofBytesFrom (bytes : List Byte) (lo : Nat) (h : lo + bytes.length ≤ 255) :
    Memory.wfFrom lo (Memory.ofBytesFrom lo bytes) = true := by
  induction bytes generalizing lo with
  | nil => rfl
  | cons v vs ih =>
    simp only [List.length_cons] at h
    have tail := ih (lo + 1) (by omega)
    by_cases hv : v = 0#8
    · simp only [Memory.ofBytesFrom, hv, if_true]
      exact Memory.wfFrom_mono tail (by omega)
    · simp only [Memory.ofBytesFrom, hv, if_false, Memory.wfFrom, Bool.and_eq_true, decide_eq_true_eq]
      exact ⟨⟨⟨le_rfl, by omega⟩, hv⟩, tail⟩

theorem Memory.wf_ofBytes (bytes : List Byte) (h : bytes.length ≤ 255) : (Memory.ofBytes bytes).wf = true :=
  Memory.wfFrom_ofBytesFrom bytes 0 (by omega)

/-! ### The accesses of the pseudocode -/

theorem memRead_of_lt (m : Memory) {a : Nat} (h : a < 255) : memRead m a = .ok (m.read a) := by
  simp [memRead, Config.bufferBytes, h]

theorem memWrite_of_lt (m : Memory) {a : Nat} (h : a < 255) (v : Byte) : memWrite m a v = .ok (m.write a v) := by
  simp [memWrite, Config.bufferBytes, h]

/-- The copy loop inside both buffers: it completes, keeps the form, and stores exactly its `n` bytes. -/
theorem copyBytes_spec (ibuf : Memory) {src dst n : Nat} (hs : src + n ≤ 255) (hd : dst + n ≤ 255) {m : Memory}
    (hm : m.wf = true) :
    ∃ m', copyBytes ibuf src dst n m = .ok m' ∧ m'.wf = true ∧
      ∀ a, m'.read a = if dst ≤ a ∧ a < dst + n then ibuf.read (src + (a - dst)) else m.read a := by
  induction n with
  | zero => exact ⟨m, rfl, hm, fun a => by simp⟩
  | succ n ih =>
    obtain ⟨m', h1, h2, h3⟩ := ih (by omega) (by omega)
    refine ⟨m'.write (dst + n) (ibuf.read (src + n)), ?_, Memory.wf_write h2 (by omega) _, fun a => ?_⟩
    · simp only [copyBytes, h1, memRead_of_lt ibuf (show src + n < 255 by omega)]
      exact memWrite_of_lt m' (by omega) _
    · rw [Memory.read_write h2, h3]
      by_cases ha : a = dst + n
      · subst ha; simp
      · by_cases hin : dst ≤ a ∧ a < dst + n
        · simp [ha, hin, show a < dst + (n + 1) by omega]
        · simp only [ha, hin, if_false]
          rw [if_neg]; omega

/-- The header capture reads six existing addresses. -/
theorem captureHeader_ok (ibuf : Memory) :
    captureHeader ibuf = .ok { hstart := ibuf.read 0, halen := ibuf.read 1, c1 := ibuf.read 2, c2 := ibuf.read 3,
                               c3 := ibuf.read 4, c4 := ibuf.read 5 } := by
  simp only [captureHeader, memRead_of_lt ibuf (show 0 < 255 by omega), memRead_of_lt ibuf (show 1 < 255 by omega),
    memRead_of_lt ibuf (show 2 < 255 by omega), memRead_of_lt ibuf (show 3 < 255 by omega),
    memRead_of_lt ibuf (show 4 < 255 by omega), memRead_of_lt ibuf (show 5 < 255 by omega)]
  rfl

/-- The header writer into an empty OBUF: six bytes, zero after them. -/
theorem writeHeader_spec (alen c1 c2 c3 c4 : Byte) :
    ∃ m, writeHeader [] alen c1 c2 c3 c4 = .ok m ∧ m.wf = true ∧
      ∀ a, m.read a = [0x68#8, alen, c1, c2, c3, c4].getD a 0#8 := by
  have w1 := Memory.wf_write Memory.wf_nil (show 0 < 255 by omega) Config.startMarker
  have w2 := Memory.wf_write w1 (show 1 < 255 by omega) alen
  have w3 := Memory.wf_write w2 (show 2 < 255 by omega) c1
  have w4 := Memory.wf_write w3 (show 3 < 255 by omega) c2
  have w5 := Memory.wf_write w4 (show 4 < 255 by omega) c3
  have w6 := Memory.wf_write w5 (show 5 < 255 by omega) c4
  refine ⟨_, by simp only [writeHeader, memWrite_of_lt _ (show 0 < 255 by omega), memWrite_of_lt _ (show 1 < 255 by omega),
    memWrite_of_lt _ (show 2 < 255 by omega), memWrite_of_lt _ (show 3 < 255 by omega),
    memWrite_of_lt _ (show 4 < 255 by omega), memWrite_of_lt _ (show 5 < 255 by omega)]; rfl, w6, fun a => ?_⟩
  rw [Memory.read_write w5, Memory.read_write w4, Memory.read_write w3, Memory.read_write w2, Memory.read_write w1,
    Memory.read_write Memory.wf_nil]
  rcases a with _ | _ | _ | _ | _ | _ | a <;> simp [Config.startMarker]

end Sys2Proof.Machine
end

