-- ==== Sys2Proof/Laws/State.lean ====
section
/-! SUPPORT. One lemma per field per update of the state and of the error response. -/

namespace Sys2Proof.Machine

@[simp] theorem State.accept_config (s : State) (r : Request) (l : List Request) : (s.accept r l).config = s.config := rfl
@[simp] theorem State.accept_issued (s : State) (r : Request) (l : List Request) : (s.accept r l).issued = l := rfl
@[simp] theorem State.accept_inFlight (s : State) (r : Request) (l : List Request) : (s.accept r l).inFlight = some r := rfl
@[simp] theorem State.accept_response (s : State) (r : Request) (l : List Request) :
    (s.accept r l).response = s.response := rfl

@[simp] theorem State.publish_config (s : State) (p : Response) : (s.publish p).config = s.config := rfl
@[simp] theorem State.publish_issued (s : State) (p : Response) : (s.publish p).issued = s.issued := rfl
@[simp] theorem State.publish_inFlight (s : State) (p : Response) : (s.publish p).inFlight = none := rfl
@[simp] theorem State.publish_response (s : State) (p : Response) : (s.publish p).response = some p := rfl

@[simp] theorem State.issue_config (s : State) (r : Request) : (s.issue r).config = s.config := rfl
@[simp] theorem State.issue_issued (s : State) (r : Request) : (s.issue r).issued = s.issued ++ [r] := rfl
@[simp] theorem State.issue_inFlight (s : State) (r : Request) : (s.issue r).inFlight = s.inFlight := rfl
@[simp] theorem State.issue_response (s : State) (r : Request) : (s.issue r).response = s.response := rfl

@[simp] theorem State.applyReset_config (s : State) : s.applyReset.config = s.config := rfl
@[simp] theorem State.applyReset_issued (s : State) : s.applyReset.issued = s.issued := rfl
@[simp] theorem State.applyReset_inFlight (s : State) : s.applyReset.inFlight = none := rfl
@[simp] theorem State.applyReset_response (s : State) : s.applyReset.response = none := rfl

@[simp] theorem Response.error_status (c : Status) : (Response.error c).status = c := rfl
@[simp] theorem Response.error_olen (c : Status) : (Response.error c).olen = 0#8 := rfl
@[simp] theorem Response.error_obuf (c : Status) : (Response.error c).obuf = [] := rfl

/-- Everything an operation can do: it is refused, it faults, or it publishes the response it computes. -/
theorem perform_cases (s : State) (op : Request → Except Fault Response) :
    (s.config.legal = false ∧ perform s op = .refused .illegalMaxPayload) ∨
    (s.config.legal = true ∧ s.inFlight = none ∧ perform s op = .fault .noRequest) ∨
    (∃ r e, s.config.legal = true ∧ s.inFlight = some r ∧ op r = .error e ∧ perform s op = .fault e) ∨
    (∃ r p, s.config.legal = true ∧ s.inFlight = some r ∧ op r = .ok p ∧ perform s op = .next (s.publish p)) := by
  unfold perform
  cases hl : s.config.legal
  · simp
  · cases hr : s.inFlight with
    | none => simp
    | some r => cases ho : op r <;> simp_all

/-- An operation that answers a next state has published a response, and changed nothing else. -/
theorem perform_next {s t : State} {op : Request → Except Fault Response} (h : perform s op = .next t) :
    ∃ r p, s.config.legal = true ∧ s.inFlight = some r ∧ op r = .ok p ∧ t = s.publish p := by
  rcases perform_cases s op with ⟨_, h'⟩ | ⟨_, _, h'⟩ | ⟨r, e, _, _, _, h'⟩ | ⟨r, p, hl, hr, hp, h'⟩
  · rw [h'] at h; cases h
  · rw [h'] at h; cases h
  · rw [h'] at h; cases h
  · rw [h'] at h; cases h; exact ⟨r, p, hl, hr, hp, rfl⟩

/-- With a request in flight and a legal configuration, an operation that computes a response completes. -/
theorem perform_ok {s : State} {op : Request → Except Fault Response} {r : Request} {p : Response}
    (hl : s.config.legal = true) (hr : s.inFlight = some r) (hp : op r = .ok p) :
    perform s op = .next (s.publish p) := by
  simp [perform, hl, hr, hp]

/-- Two operations that agree on the request in flight have the same effect. -/
theorem perform_congr {s : State} {f g : Request → Except Fault Response}
    (h : ∀ r, s.inFlight = some r → f r = g r) : perform s f = perform s g := by
  unfold perform
  cases hr : s.inFlight with
  | none => rfl
  | some r => simp [h r hr]

end Sys2Proof.Machine
end

