-- ==== Sys2Proof/Laws/Frames.lean ====
section
/-! SUPPORT. What each shared piece of the meanings computes, said once: the head of PARSE, the parsed frame, the two
kinds of built frame; and that the computations of Machine/Flags.lean agree with the rows of the decoder. -/

namespace Sys2Proof.Machine

/-- Short input: the error response, and the rest is not reached. -/
theorem withHeader_short {n : Byte} (h : n.toNat < 6) (ibuf : Memory)
    (k : ControlHeader → Except Fault Response) : withHeader n ibuf k = .ok (Response.error .errShort) := by
  simp [withHeader, Config.hdrBytes, h, raise]

/-- A whole header: the rest gets IBUF bytes 0..5. -/
theorem withHeader_header {n : Byte} (h : 6 ≤ n.toNat) (ibuf : Memory)
    (k : ControlHeader → Except Fault Response) :
    withHeader n ibuf k = k { hstart := ibuf.read 0, halen := ibuf.read 1, c1 := ibuf.read 2, c2 := ibuf.read 3,
                              c3 := ibuf.read 4, c4 := ibuf.read 5 } := by
  simp only [withHeader, Config.hdrBytes, Nat.not_lt.mpr h, if_false, captureHeader_ok]
  rfl

/-- The part of PARSE all classes share completes, with the payload in OBUF. -/
theorem parsedFrame_spec {n : Byte} (hn : 6 ≤ n.toNat) (h : ControlHeader) (cls : FrameClass) (ibuf : Memory) :
    ∃ obuf, obuf.wf = true ∧ (∀ a, obuf.read a = if a < n.toNat - 6 then ibuf.read (6 + a) else 0#8) ∧
      parsedFrame n h cls ibuf = .ok { Response.zero with
        status := .ok, cls := cls, hstart := h.hstart, halen := h.halen, hc1 := h.c1, hc2 := h.c2, hc3 := h.c3,
        hc4 := h.c4, chk := checksOf h n.toNat cls, olen := BitVec.ofNat 8 (n.toNat - 6), obuf := obuf } := by
  have hlt := n.isLt
  obtain ⟨m, h1, h2, h3⟩ := copyBytes_spec ibuf (src := 6) (dst := 0) (n := n.toNat - 6) (by omega) (by omega)
    Memory.wf_nil
  refine ⟨m, h2, fun a => ?_, ?_⟩
  · rw [h3]; simp
  · simp only [parsedFrame, Config.hdrBytes, h1]; rfl

/-- A frame of the header alone. -/
theorem headerFrame_spec (c1 c2 c3 c4 : Byte) :
    ∃ m, m.wf = true ∧ (∀ a, m.read a = [0x68#8, 0x04#8, c1, c2, c3, c4].getD a 0#8) ∧
      headerFrame c1 c2 c3 c4 = .ok (builtFrame 6 m) := by
  obtain ⟨m, h1, h2, h3⟩ := writeHeader_spec 0x04#8 c1 c2 c3 c4
  exact ⟨m, h2, h3, by simp only [headerFrame, h1]; rfl⟩

/-- A payload above the limit: the error response. -/
theorem informationFrame_oversize {maxPayload : Nat} {ilen : Byte} (h : maxPayload < ilen.toNat) (ssn rsn : Seq)
    (ibuf : Memory) : informationFrame maxPayload ssn rsn ilen ibuf = .ok (Response.error .errOversize) := by
  simp [informationFrame, h, raise]

/-- A payload within a legal limit: the header, the payload after it, zero after that. -/
theorem informationFrame_spec {maxPayload : Nat} {ilen : Byte} (hi : ilen.toNat ≤ maxPayload) (hl : maxPayload ≤ 249)
    (ssn rsn : Seq) (ibuf : Memory) :
    ∃ m, m.wf = true ∧
      (∀ a, m.read a = if a < 6 then [0x68#8, BitVec.ofNat 8 (ilen.toNat + 4), seqLow ssn, seqHigh ssn, seqLow rsn,
          seqHigh rsn].getD a 0#8 else if a < ilen.toNat + 6 then ibuf.read (a - 6) else 0#8) ∧
      informationFrame maxPayload ssn rsn ilen ibuf = .ok (builtFrame (ilen.toNat + 6) m) := by
  obtain ⟨m, h1, h2, h3⟩ := writeHeader_spec (BitVec.ofNat 8 (ilen.toNat + 4)) (seqLow ssn) (seqHigh ssn)
    (seqLow rsn) (seqHigh rsn)
  obtain ⟨m', k1, k2, k3⟩ := copyBytes_spec ibuf (src := 0) (dst := 6) (n := ilen.toNat) (by omega) (by omega) h2
  refine ⟨m', k2, fun a => ?_, ?_⟩
  · rw [k3, h3]
    by_cases ha : a < 6
    · simp only [ha, if_true]; rw [if_neg (by omega)]
    · by_cases hb : a < ilen.toNat + 6
      · rw [if_pos (by omega), if_neg ha, if_pos hb, Nat.zero_add]
      · rw [if_neg (by omega), if_neg ha, if_neg hb]
        simp [List.getD_eq_getElem?_getD, show 6 ≤ a by omega]
  · simp only [informationFrame, Nat.not_lt.mpr hi, if_false, h1, Config.hdrBytes]
    show Except.bind (copyBytes ibuf 0 6 ilen.toNat m) _ = _
    rw [k1]; rfl

/-- The class computed from c1 is the class of the decoder's row. -/
theorem classOf_information {c1 : Byte} (h : c1.extractLsb' 0 1 = 0#1) : classOf c1 = .information := by
  simp [classOf, h]

theorem classOf_supervisory {c1 : Byte} (h : c1.extractLsb' 0 2 = 0b01#2) : classOf c1 = .supervisory := by
  have : c1.extractLsb' 0 1 ≠ 0#1 := fun h0 => by
    have set : c1[0] = true := by simpa using congrArg (·[0]) h
    have clear : c1[0] = false := by simpa using congrArg (·[0]) h0
    simp [set] at clear
  simp [classOf, h, this]

theorem classOf_unnumbered {c1 : Byte} (h : c1.extractLsb' 0 2 = 0b11#2) : classOf c1 = .unnumbered := by
  have : c1.extractLsb' 0 1 ≠ 0#1 := fun h0 => by
    have set : c1[0] = true := by simpa using congrArg (·[0]) h
    have clear : c1[0] = false := by simpa using congrArg (·[0]) h0
    simp [set] at clear
  simp [classOf, h, this]

end Sys2Proof.Machine
end

