-- ==== Sys2Proof/Laws/PerInstr.lean ====
section
/-! SUPPORT. The statements made of every constructor of Instr: each has its own level's row in the decoder, read
from the word the encoder gives it. -/

namespace Sys2Proof.Laws.RoundTrip

/-- The decoder of the instruction's level reads the instruction from its word. -/
def Statement (i : Instr) : Prop := i.wellFormed = true → decodeAt i.level i.encode = .ok i

theorem parse (ilen : Byte) : Statement (.parse ilen) := fun _ => by
  simp [decodeAt, Instr.level, Instr.encode, decodeRequest, op_requestWord, ilen_requestWord]

theorem buildI (ssn rsn : Seq) (ilen : Byte) : Statement (.buildI ssn rsn ilen) := fun _ => by
  simp [decodeAt, Instr.level, Instr.encode, decodeRequest, op_requestWord, ssn_requestWord, rsn_requestWord,
    ilen_requestWord]

theorem buildS (rsn : Seq) : Statement (.buildS rsn) := fun _ => by
  simp [decodeAt, Instr.level, Instr.encode, decodeRequest, op_requestWord, rsn_requestWord]

theorem buildU (fbits : Byte) : Statement (.buildU fbits) := fun _ => by
  simp [decodeAt, Instr.level, Instr.encode, decodeRequest, op_requestWord, fbits_requestWord]

theorem iFrame (ssn rsn : Seq) (ignored : BitVec 1) : Statement (.iFrame ssn rsn ignored) := fun _ => by
  simp only [decodeAt, Instr.level, Instr.encode, decodeClass, iControl, bit0_controlWord, bit0_seqLow_zero, if_true,
    ignored_controlWord, bit0_seqLow, c1Of_controlWord, c2Of_controlWord, c3Of_controlWord, c4Of_controlWord,
    seqOf_split, seqOf_split_zero]

theorem sFrame (fixedC1 : BitVec 6) (fixedC2 : Byte) (ignored : BitVec 1) (rsn : Seq) :
    Statement (.sFrame fixedC1 fixedC2 ignored rsn) := fun _ => by
  obtain ⟨h0, h1, h2⟩ := sFrame_byte fixedC1
  simp only [decodeAt, Instr.level, Instr.encode, decodeClass, sControl, bit0_controlWord, tag_controlWord,
    func_controlWord, ignored_controlWord, h0, h1, h2, if_true, if_false, bit0_seqLow, c2Of_controlWord,
    c3Of_controlWord, c4Of_controlWord, seqOf_split]

theorem uFrame (func : BitVec 6) (fixed : BitVec 24) : Statement (.uFrame func fixed) := fun _ => by
  have tag0 : (uControl func fixed).extractLsb' 0 1 ≠ 0#1 := fun h => by
    have := congrArg (·[0]) h
    simp [uControl, field] at this
  simp [decodeAt, Instr.level, Instr.encode, decodeClass, tag0, tag_uControl, func_uControl, fixed_uControl]

theorem uStartActivate (fixed : BitVec 24) : Statement (.uStartActivate fixed) := fun _ => by
  simp [decodeAt, Instr.level, Instr.encode, decodeFunction, tag_uControl, c1Of_uControl, fixed_uControl, field]

theorem uStartConfirm (fixed : BitVec 24) : Statement (.uStartConfirm fixed) := fun _ => by
  simp [decodeAt, Instr.level, Instr.encode, decodeFunction, tag_uControl, c1Of_uControl, fixed_uControl, field]

theorem uStopActivate (fixed : BitVec 24) : Statement (.uStopActivate fixed) := fun _ => by
  simp [decodeAt, Instr.level, Instr.encode, decodeFunction, tag_uControl, c1Of_uControl, fixed_uControl, field]

theorem uStopConfirm (fixed : BitVec 24) : Statement (.uStopConfirm fixed) := fun _ => by
  simp [decodeAt, Instr.level, Instr.encode, decodeFunction, tag_uControl, c1Of_uControl, fixed_uControl, field]

theorem uTestActivate (fixed : BitVec 24) : Statement (.uTestActivate fixed) := fun _ => by
  simp [decodeAt, Instr.level, Instr.encode, decodeFunction, tag_uControl, c1Of_uControl, fixed_uControl, field]

theorem uTestConfirm (fixed : BitVec 24) : Statement (.uTestConfirm fixed) := fun _ => by
  simp [decodeAt, Instr.level, Instr.encode, decodeFunction, tag_uControl, c1Of_uControl, fixed_uControl, field]

theorem uUnknown (func : BitVec 6) (fixed : BitVec 24) : Statement (.uUnknown func fixed) := fun h => by
  have hn := unknown_byte func (by simpa [Instr.wellFormed] using h)
  simp only [List.mem_cons, List.not_mem_nil, or_false, not_or] at hn
  obtain ⟨h1, h2, h3, h4, h5, h6⟩ := hn
  simp only [decodeAt, Instr.level, Instr.encode, decodeFunction, tag_uControl, c1Of_uControl, fixed_uControl,
    func_uControl, if_true]

end Sys2Proof.Laws.RoundTrip
end

