-- ==== Sys2Proof/Laws/Step.lean ====
section
/-! SUPPORT. What a step and an instruction can do, said once. -/

namespace Sys2Proof.Machine

/-- The response an instruction computes from a request, under a configuration. -/
def operationOf (c : Config) : Instr → Request → Except Fault Response
  | .parse n => fun r => withHeader n r.ibuf fun h => parsedByClass n h r.ibuf (classOf h.c1)
  | .buildI ssn rsn ilen => fun r => informationFrame c.maxPayload ssn rsn ilen r.ibuf
  | .buildS rsn => fun _ => headerFrame 0x01#8 0x00#8 (seqLow rsn) (seqHigh rsn)
  | .buildU fbits => fun _ => headerFrame (funcByte fbits) 0x00#8 0x00#8 0x00#8
  | .iFrame ssn rsn ignored => frameOperation (iControl ssn rsn ignored) fun n h m => parsedInformation n h ssn rsn m
  | .sFrame fixedC1 fixedC2 ignored rsn =>
    frameOperation (sControl fixedC1 fixedC2 ignored rsn) fun n h m => parsedSupervisory n h rsn m
  | .uFrame func fixed => functionOperation func fixed (field 8 2 func) (functionOf (field 8 2 func))
  | .uStartActivate fixed => functionOperation 0b000001#6 fixed 0x04#8 .startActivate
  | .uStartConfirm fixed => functionOperation 0b000010#6 fixed 0x08#8 .startConfirm
  | .uStopActivate fixed => functionOperation 0b000100#6 fixed 0x10#8 .stopActivate
  | .uStopConfirm fixed => functionOperation 0b001000#6 fixed 0x20#8 .stopConfirm
  | .uTestActivate fixed => functionOperation 0b010000#6 fixed 0x40#8 .testActivate
  | .uTestConfirm fixed => functionOperation 0b100000#6 fixed 0x80#8 .testConfirm
  | .uUnknown func fixed => functionOperation func fixed (field 8 2 func) .unknown
where
  /-- A function row. -/
  functionOperation (func : BitVec 6) (fixed : BitVec 24) (code : Byte) (ufn : ControlFunction) :
      Request → Except Fault Response :=
    frameOperation (uControl func fixed) fun n h m => parsedUnnumbered n h code ufn m

/-- Every instruction performs one operation on the request in flight, fixed by the configuration alone. -/
theorem exec_eq_perform (i : Instr) (s : State) : exec i s = perform s (operationOf s.config i) := by
  cases i <;> rfl

/-- A step that answers a next state: it executed the request in flight, accepted the oldest issued request, or had
nothing to do. -/
theorem step_next_cases {s t : State} (h : step s = .next t) :
    s.config.legal = true ∧
      ((∃ r, s.inFlight = some r ∧ exec (decodeRequest r.word) s = .next t) ∨
       (∃ r rest, s.inFlight = none ∧ s.issued = r :: rest ∧ t = s.accept r rest) ∨
       (s.inFlight = none ∧ s.issued = [] ∧ t = s)) := by
  unfold step at h
  cases hl : s.config.legal
  · simp [hl] at h
  · refine ⟨rfl, ?_⟩
    cases hr : s.inFlight with
    | some r => simp only [hl, hr, if_true] at h; exact .inl ⟨r, rfl, h⟩
    | none =>
      cases hi : s.issued with
      | nil => simp [hl, hr, hi] at h; exact .inr (.inr ⟨rfl, rfl, h.symm⟩)
      | cons r rest => simp [hl, hr, hi] at h; exact .inr (.inl ⟨r, rest, rfl, rfl, h.symm⟩)

end Sys2Proof.Machine
end

