-- ==== Sys2Proof/Tests/Slice0.lean ====
section
/-! SUPPORT. The model's own tests. Expected values come from spec/95_test_vectors.md (named P1, I1, L1-A and so on in
the comments), from the opcode table's rows, and from the rules' own examples. The last section meets the hypotheses
of each statement of Certificates/Slice0/Obligations.lean. -/

namespace Sys2Proof.Machine.Tests

/-! ### Well-formedness: U_Unknown refuses each of the six named functions (R166, R78) -/

theorem test_wf_unknown_not_startActivate : (Instr.uUnknown 0b000001#6 0#24).wellFormed = false := by decide
theorem test_wf_unknown_not_startConfirm : (Instr.uUnknown 0b000010#6 0#24).wellFormed = false := by decide
theorem test_wf_unknown_not_stopActivate : (Instr.uUnknown 0b000100#6 0#24).wellFormed = false := by decide
theorem test_wf_unknown_not_stopConfirm : (Instr.uUnknown 0b001000#6 0#24).wellFormed = false := by decide
theorem test_wf_unknown_not_testActivate : (Instr.uUnknown 0b010000#6 0#24).wellFormed = false := by decide
theorem test_wf_unknown_not_testConfirm : (Instr.uUnknown 0b100000#6 0#24).wellFormed = false := by decide
theorem test_wf_unknown_two_bits : (Instr.uUnknown 0b000011#6 0#24).wellFormed = true := by decide

/-! ### Decoding: each row's word, bit by bit from its encoding (REQW fields of R70; CW bytes c4 c3 c2 c1 of R60) -/

theorem test_decode_parse :
    decodeTableWord 48 0b00000110_00000000_000000000000000_000000000000000_00 = some (.parse 6#8) := by decide
theorem test_decode_buildI :
    decodeTableWord 48 0b00000010_00000000_100000000000001_000000000000011_01
      = some (.buildI 3#15 0x4001#15 2#8) := by decide
theorem test_decode_buildS :
    decodeTableWord 48 0b00000000_00000000_000000000000101_000000000000000_10 = some (.buildS 5#15) := by decide
theorem test_decode_buildU :
    decodeTableWord 48 0b00000000_10000100_000000000000000_000000000000000_11 = some (.buildU 0x84#8) := by decide
theorem test_decode_iFrame :
    decodeTableWord 32 0b00000000_00001011_00000001_00000010 = some (.iFrame 129#15 5#15 1#1) := by decide
theorem test_decode_sFrame :
    decodeTableWord 32 0b10000000_00001010_01110111_00000101 = some (.sFrame 1#6 0x77#8 0#1 0x4005#15) := by decide
theorem test_decode_uFrame :
    decodeAt .frameClass (.cw 0b00000011_00000010_00000001_00001111#32) = .ok (.uFrame 3#6 0x030201#24) := by decide
theorem test_decode_startActivate :
    decodeTableWord 32 0b00000000_00000000_00000000_00000111 = some (.uStartActivate 0#24) := by decide
theorem test_decode_startConfirm :
    decodeTableWord 32 0b00000000_00000000_00000000_00001011 = some (.uStartConfirm 0#24) := by decide
theorem test_decode_stopActivate :
    decodeTableWord 32 0b00000000_00000000_00000000_00010011 = some (.uStopActivate 0#24) := by decide
theorem test_decode_stopConfirm :
    decodeTableWord 32 0b00000000_00000000_00000000_00100011 = some (.uStopConfirm 0#24) := by decide
theorem test_decode_testActivate :
    decodeTableWord 32 0b00000011_00000010_00000001_01000011 = some (.uTestActivate 0x030201#24) := by decide
theorem test_decode_testConfirm :
    decodeTableWord 32 0b00000000_00000000_00000000_10000011 = some (.uTestConfirm 0#24) := by decide
theorem test_decode_unknown_zero :
    decodeTableWord 32 0b00000000_00000000_00000000_00000011 = some (.uUnknown 0#6 0#24) := by decide
theorem test_decode_other_width : encodedOf 16 0 = .error (.unknownWidth 16) := by decide
theorem test_decode_apdu_short : decodeApdu [0x68#8, 4, 1, 0, 0x0A] = .error (.apduTooShort 5) := by decide
theorem test_decode_apdu : decodeApdu [0x68#8, 4, 1, 0, 0x0A, 0] = .ok (.sFrame 0#6 0#8 0#1 5#15) := by decide

/-! ### One operation each -/

/-- A fresh codec with the given MAX_PAYLOAD and a request in flight. -/
def at_ (maxPayload : Nat) (r : Request) : State :=
  { config := { maxPayload := maxPayload }, issued := [], inFlight := some r, response := none }

/-- The response after one step, if the step answers a next state. -/
def answer (s : State) : Option Response :=
  match step s with
  | .next t => t.response
  | .fault _ => none
  | .refused _ => none

/-- The response after one instruction on an APDU. -/
def answerOf (i : Instr) (apdu : List Byte) : Option Response :=
  match exec i (at_ 249 (Request.ofApdu apdu)) with
  | .next t => t.response
  | .fault _ => none
  | .refused _ => none

/-- Class, sequence numbers, function, codes of `ufn` and `chk`, and `olen` of a response. -/
def digest (p : Response) : FrameClass × List Nat :=
  (p.cls, [p.ssn.toNat, p.rsn.toNat, p.func.toNat, p.ufn.code.toNat, p.chk.code.toNat, p.olen.toNat])

/-- A request by its listing (R70): REQW and the bytes of IBUF. -/
def listed (w : ReqWord) (ibuf : List Byte) : Request := Request.ofWord w (Memory.ofBytes ibuf)

/-- P2: the largest short length. -/
theorem test_parse_short :
    (answer (at_ 249 (listed 0x050000000000#48 [0x68, 0x04, 0x01, 0x00, 0x0A]))).map (fun p => (p.status, p.obuf))
      = some (.errShort, []) := by decide
/-- P13: an S frame with trailing bytes. -/
theorem test_parse_trailing :
    (answer (at_ 0 (listed 0x080000000000#48 [0x68, 0x04, 0x01, 0x00, 0x02, 0x00, 0xDE, 0xAD]))).map
      (fun p => (digest p, p.obuf.bytes 3)) = some ((.supervisory, [0, 1, 0, 0, 0b010, 2]), [0xDE, 0xAD, 0]) := by decide
/-- I8: the payload after the header. -/
theorem test_buildI :
    (answer (at_ 249 (listed 0x01000001FFFD#48 [0x01]))).map (fun p => (p.olen, p.obuf.bytes 8))
      = some (7#8, [0x68, 0x05, 0xFE, 0xFF, 0x00, 0x00, 0x01, 0x00]) := by decide
/-- I5: one byte above MAX_PAYLOAD = 9. -/
theorem test_buildI_oversize :
    (answer (at_ 9 (listed 0x0A0000000001#48 (List.replicate 10 0x11#8)))).map (fun p => (p.status, p.olen, p.obuf))
      = some (.errOversize, 0#8, []) := by decide
/-- 2.3: rsn = 16384. -/
theorem test_buildS :
    (answer (at_ 0 (listed 0x000080000002#48 []))).map (fun p => (p.olen, p.obuf.bytes 7))
      = some (6#8, [0x68, 0x04, 0x01, 0x00, 0x00, 0x80, 0x00]) := by decide
/-- 2.4: fbits = 0x05, low bits overwritten. -/
theorem test_buildU :
    (answer (at_ 0 (listed 0x000500000003#48 []))).map (fun p => (p.olen, p.obuf.bytes 7))
      = some (6#8, [0x68, 0x04, 0x07, 0x00, 0x00, 0x00, 0x00]) := by decide
/-- P10: c3 bit 0 is ignored, as the I_FRAME row and through PARSE. -/
theorem test_iFrame :
    (answerOf (.iFrame 0#15 5#15 1#1) [0x68, 0x04, 0x00, 0x00, 0x0B, 0x00]).map digest
      = some (.information, [0, 5, 0, 0, 0, 0]) := by decide
theorem test_parse_iFrame :
    (answer (at_ 249 (listed 0x060000000000#48 [0x68, 0x04, 0x00, 0x00, 0x0B, 0x00]))).map digest
      = some (.information, [0, 5, 0, 0, 0, 0]) := by decide
/-- P11: the fixed bytes of an S frame reach only `chk`. -/
theorem test_sFrame :
    (answerOf (.sFrame 1#6 0x77#8 0#1 5#15) [0x68, 0x04, 0x05, 0x77, 0x0A, 0x00]).map digest
      = some (.supervisory, [0, 5, 0, 0, 0b100, 0]) := by decide
/-- P14: two function bits set. -/
theorem test_uFrame :
    (answerOf (.uFrame 3#6 0#24) [0x68, 0x04, 0x0F, 0x00, 0x00, 0x00]).map digest
      = some (.unnumbered, [0, 0, 0x0C, 7, 0, 0]) := by decide
/-- P12: every check fails, the function still stands. -/
theorem test_testActivate :
    (answerOf (.uTestActivate 0x030201#24) [0x12, 0x09, 0x43, 0x01, 0x02, 0x03]).map digest
      = some (.unnumbered, [0, 0, 0x40, 5, 0b111, 0]) := by decide
/-- 2.4: func and ufn of the other named functions. -/
theorem test_startActivate :
    (answerOf (.uStartActivate 0#24) [0x68, 0x04, 0x07, 0x00, 0x00, 0x00]).map digest
      = some (.unnumbered, [0, 0, 0x04, 1, 0, 0]) := by decide
theorem test_startConfirm :
    (answerOf (.uStartConfirm 0#24) [0x68, 0x04, 0x0B, 0x00, 0x00, 0x00]).map digest
      = some (.unnumbered, [0, 0, 0x08, 2, 0, 0]) := by decide
theorem test_stopActivate :
    (answerOf (.uStopActivate 0#24) [0x68, 0x04, 0x13, 0x00, 0x00, 0x00]).map digest
      = some (.unnumbered, [0, 0, 0x10, 3, 0, 0]) := by decide
theorem test_stopConfirm :
    (answerOf (.uStopConfirm 0#24) [0x68, 0x04, 0x23, 0x00, 0x00, 0x00]).map digest
      = some (.unnumbered, [0, 0, 0x20, 4, 0, 0]) := by decide
theorem test_testConfirm :
    (answerOf (.uTestConfirm 0#24) [0x68, 0x04, 0x83, 0x00, 0x00, 0x00]).map digest
      = some (.unnumbered, [0, 0, 0x80, 6, 0, 0]) := by decide
/-- P6: all function bits set. -/
theorem test_unknown :
    (answerOf (.uUnknown 0x3F#6 0#24) [0x68, 0x04, 0xFF, 0x00, 0x00, 0x00]).map digest
      = some (.unnumbered, [0, 0, 0xFC, 7, 0, 0]) := by decide
/-- P12 through PARSE: the header as received. -/
theorem test_parse_header :
    (answer (at_ 249 (listed 0x060000000000#48 [0x12, 0x09, 0x43, 0x01, 0x02, 0x03]))).map
      (fun p => (p.hstart, p.halen, p.hc1, p.hc2, p.hc3, p.hc4)) = some (0x12, 0x09, 0x43, 0x01, 0x02, 0x03) := by decide

/-! ### The machine around an operation -/

theorem test_step_accepts :
    step (State.reset.issue (listed 0x000500000003#48 []))
      = .next (State.reset.accept (listed 0x000500000003#48 []) []) := rfl
theorem test_placed_word_runs :
    (answer (State.reset.withFetchWord 32 0x00000083)).map digest = some (.unnumbered, [0, 0, 0x80, 6, 0, 0]) := by decide
theorem test_read_after_reset : State.reset.readResponse = .fault .noResponse := rfl
theorem test_illegal_config : step (at_ 250 (listed 2#48 [])) = .refused .illegalMaxPayload := rfl

/-- Program 4: errors are not sticky (MAX_PAYLOAD = 4). -/
theorem test_program_four :
    (responses (.issue (listed 0x050000000001#48 [1, 2, 3, 4, 5]) :: .issue (listed 0x030000000000#48 [0x68, 4, 1]) ::
        .issue (listed 0x060000000000#48 [0x68, 4, 0x43, 0, 0, 0]) :: List.replicate 6 .codec)
        { State.reset with config := { maxPayload := 4 } }).map (fun p => (p.status, p.ufn.code.toNat))
      = [(.errOversize, 0), (.errShort, 0), (.ok, 5)] := by decide

/-! ### The assembler: the listings of 95_test_vectors.md (L1-C, Program 3) and the refusals of R80 -/

/-- The listing of an assembled line. -/
def listingOf (line : List Char) : Except AsmError (Option (ReqWord × List Byte)) :=
  match assembleLine line with
  | .ok r => .ok (r.map Request.listing)
  | .error e => .error e

theorem test_asm_buildI :
    listingOf "BUILD_I 1, 0, [AA BB] ; Scenario C".toList = .ok (some (0x020000000005#48, [0xAA, 0xBB])) := by decide
theorem test_asm_buildU : listingOf "BUILD_U 0x04".toList = .ok (some (0x000400000003#48, [])) := by decide
theorem test_asm_pseudo : listingOf "TESTCON".toList = .ok (some (0x008000000003#48, [])) := by decide
theorem test_asm_sequence : listingOf "BUILD_S 32768".toList = .error .sequenceTooLarge := by decide
theorem test_asm_mnemonic : listingOf "NOP".toList = .error .unknownMnemonic := by decide
theorem test_asm_line_number :
    (assembleFrom 1 ["; start".toList, "STARTACT".toList, "BUILD_U 256".toList]) = .error (2 + 1, .functionBitsTooLarge) := by
  decide

/-! ### The hypotheses of the statements are met: one theorem for each statement that has hypotheses, named after it,
each clause at a boundary value of its range -/

/-- PARSE of `n` bytes of an IBUF that starts with the given bytes. -/
def parseReq (n : Byte) (bytes : List Byte) : Request := { Request.ofApdu bytes with ilen := n }

/-- BUILD_I with sequence numbers 1 and 0 and a payload of `l` bytes (Scenario C for `l = 2`). -/
def buildReq (l : Byte) : Request := listed (requestWord 0b01#2 1#15 0#15 0#8 l) [0xAA, 0xBB]

/-- BUILD_U of StartActivate. -/
def startReq : Request := listed 0x000400000003#48 []

theorem witness_FrameClassByTheTagOfC1 :
    (0xFE#8).toNat % 2 = 0 ∧ (0xFD#8).toNat % 4 = 1 ∧ (0xFF#8).toNat % 4 = 3 := by decide
theorem witness_RequestOperationByItsTwoBits :
    0xFF0000000000 % 4 = 0 ∧ 0xFFFFFFFFFFFD % 4 = 1 ∧ 0xFFFFFFFFFFFE % 4 = 2 ∧ 0xFFFFFFFFFFFF % 4 = 3 ∧
    (parseReq 6#8 []).op = 0b00#2 ∧ (buildReq 2#8).op = 0b01#2 ∧ (listed 2#48 []).op = 0b10#2 ∧
      startReq.op = 0b11#2 := by decide
theorem witness_DecodingUndoesEncoding :
    (Instr.uUnknown 0#6 0xFFFFFF#24).wellFormed = true ∧ ∀ f x, Instr.uUnknown 0#6 0xFFFFFF#24 ≠ .uFrame f x :=
  ⟨by decide, fun _ _ => by simp⟩
theorem witness_StepRunsTheDecodedRequest : (at_ 249 startReq).ready startReq := ⟨rfl, rfl⟩
theorem witness_IdleStepAcceptsOrWaits :
    State.reset.config.legal = true ∧ State.reset.inFlight = none ∧ State.reset.issued = [] ∧
      (State.reset.issue startReq).inFlight = none ∧ (State.reset.issue startReq).issued = startReq :: [] :=
  ⟨rfl, rfl, rfl, rfl, rfl⟩
theorem witness_PlacedWordIsTheInstructionRun : State.reset.config.legal = true := rfl
theorem witness_ParseIsTheRowOfItsControlField :
    (at_ 0 (parseReq 6#8 [0x68, 4, 7])).ready (parseReq 6#8 [0x68, 4, 7]) ∧ 6 ≤ (parseReq 6#8 [0x68, 4, 7]).ilen.toNat :=
  ⟨⟨rfl, rfl⟩, by decide⟩
theorem witness_IllegalMaxPayloadRunsNoOperation : 249 < (at_ 250 startReq).config.maxPayload := by decide
theorem witness_ParseOfShortInputIsErrShort :
    (at_ 249 (parseReq 5#8 [])).ready (parseReq 5#8 []) ∧ (5#8).toNat < 6 ∧ (0#8).toNat < 6 :=
  ⟨⟨rfl, rfl⟩, by decide, by decide⟩
theorem witness_ParseSplitsAndClassifies :
    (at_ 249 (parseReq 255#8 [0x68, 0xFD, 0xFF])).ready (parseReq 255#8 [0x68, 0xFD, 0xFF]) ∧ (5#8).toNat < 6 ∧
      6 ≤ (6#8).toNat ∧ 6 ≤ (255#8).toNat ∧ (parseReq 6#8 [0, 0, 0xFE]).ibuf.header.c1.toNat % 2 = 0 ∧
      (parseReq 6#8 [0, 0, 0x01]).ibuf.header.c1.toNat % 4 = 1 ∧
      (parseReq 6#8 [0, 0, 0xFF]).ibuf.header.c1.toNat % 4 = 3 :=
  ⟨⟨rfl, rfl⟩, by decide, by decide, by decide, by decide, by decide, by decide⟩
theorem witness_InformationRowGivesItsSequenceNumbers :
    (at_ 249 (parseReq 6#8 [])).ready (parseReq 6#8 []) ∧ 6 ≤ (parseReq 6#8 []).ilen.toNat := ⟨⟨rfl, rfl⟩, by decide⟩
theorem witness_SupervisoryRowGivesItsReceiveNumber :
    (at_ 0 (parseReq 6#8 [])).ready (parseReq 6#8 []) ∧ 6 ≤ (parseReq 6#8 []).ilen.toNat := ⟨⟨rfl, rfl⟩, by decide⟩
theorem witness_UnnumberedRowGivesItsFunction :
    (at_ 0 (parseReq 255#8 [])).ready (parseReq 255#8 []) ∧ 6 ≤ (parseReq 255#8 []).ilen.toNat :=
  ⟨⟨rfl, rfl⟩, by decide⟩
theorem witness_NamedFunctionRows :
    (at_ 249 (parseReq 6#8 [])).ready (parseReq 6#8 []) ∧ 6 ≤ (parseReq 6#8 []).ilen.toNat ∧ 3 < 4 :=
  ⟨⟨rfl, rfl⟩, by decide, by decide⟩
theorem witness_UnknownFunctionRow :
    (at_ 249 (parseReq 6#8 [])).ready (parseReq 6#8 []) ∧ (0#6).toNat ∉ [1, 2, 4, 8, 16, 32] ∧
      (63#6).toNat ∉ [1, 2, 4, 8, 16, 32] ∧ 6 ≤ (parseReq 6#8 []).ilen.toNat ∧ 3 < 4 :=
  ⟨⟨rfl, rfl⟩, by decide, by decide, by decide, by decide⟩
theorem witness_FrameRowOfShortInputIsErrShort :
    isFrameRow (.uUnknown 0#6 0#24) = true ∧ (at_ 249 (parseReq 5#8 [])).ready (parseReq 5#8 []) ∧
      (parseReq 5#8 []).ilen.toNat < 6 := ⟨by decide, ⟨rfl, rfl⟩, by decide⟩
theorem witness_LengthByteReachesOnlyTheCheck :
    ∃ p p', exec (.parse 6#8) (at_ 249 (parseReq 6#8 [0x68, 4, 1])) = .next ((at_ 249 (parseReq 6#8 [0x68, 4, 1])).publish p) ∧
      exec (.parse 6#8) (at_ 249 (parseReq 6#8 [0x68, 9, 1])) = .next ((at_ 249 (parseReq 6#8 [0x68, 9, 1])).publish p') ∧
      p.chk ≠ p'.chk ∧
      ∀ a, a ≠ 1 → (parseReq 6#8 [0x68, 4, 1]).ibuf.read a = (parseReq 6#8 [0x68, 9, 1]).ibuf.read a :=
  ⟨_, _, rfl, rfl, by decide, fun a h => by simp [parseReq, Request.ofApdu, Memory.ofBytes, Memory.ofBytesFrom, Memory.read, h]⟩
theorem witness_BuildIWritesTheInformationFrame :
    (at_ 249 (buildReq 249#8)).ready (buildReq 249#8) ∧ (249#8).toNat ≤ (at_ 249 (buildReq 249#8)).config.maxPayload ∧
      (at_ 249 (buildReq 249#8)).config.maxPayload < (250#8).toNat := ⟨⟨rfl, rfl⟩, by decide, by decide⟩
theorem witness_BuildIOfOversizePayloadIsErrOversize :
    (at_ 0 (buildReq 1#8)).ready (buildReq 1#8) ∧ (at_ 0 (buildReq 1#8)).config.maxPayload < (1#8).toNat :=
  ⟨⟨rfl, rfl⟩, by decide⟩
theorem witness_BuildIAtTheBoundary : (at_ 0 (buildReq 0#8)).ready (buildReq 0#8) ∧
    (at_ 249 (buildReq 249#8)).ready (buildReq 249#8) := ⟨⟨rfl, rfl⟩, ⟨rfl, rfl⟩⟩
theorem witness_BuildSWritesTheSupervisoryFrame : (at_ 0 (listed 2#48 [])).ready (listed 2#48 []) := ⟨rfl, rfl⟩
theorem witness_BuildUWritesTheUnnumberedFrame : (at_ 0 startReq).ready startReq := ⟨rfl, rfl⟩
theorem witness_BuiltFrameHeaderConstants :
    ∃ t p, (at_ 249 (buildReq 2#8)).ready (buildReq 2#8) ∧ (buildReq 2#8).op ≠ 0b00#2 ∧
      step (at_ 249 (buildReq 2#8)) = .next t ∧ t.response = some p ∧ p.status = .ok :=
  ⟨_, _, ⟨rfl, rfl⟩, by decide, rfl, rfl, rfl⟩
theorem witness_PayloadsAreCopiedVerbatim :
    (∃ p, exec (.parse 7#8) (at_ 249 (parseReq 7#8 [])) = .next ((at_ 249 (parseReq 7#8 [])).publish p) ∧ 0 < (7#8).toNat - 6) ∧
    (∃ p, exec (.buildI 1#15 0#15 2#8) (at_ 2 (buildReq 2#8)) = .next ((at_ 2 (buildReq 2#8)).publish p) ∧
      p.status = .ok ∧ 1 < (2#8).toNat) := ⟨⟨_, rfl, by decide⟩, ⟨_, rfl, rfl, by decide⟩⟩
theorem witness_InformationFrameRoundTrip :
    ∃ b, (at_ 2 (buildReq 2#8)).ready (buildReq 2#8) ∧ (2#8).toNat ≤ (at_ 2 (buildReq 2#8)).config.maxPayload ∧
      exec (.buildI 1#15 0#15 2#8) (at_ 2 (buildReq 2#8)) = .next ((at_ 2 (buildReq 2#8)).publish b) ∧
      (at_ 0 (Request.parseOf b 0#15 0#15 0#8)).ready (Request.parseOf b 0#15 0#15 0#8) :=
  ⟨_, ⟨rfl, rfl⟩, by decide, rfl, ⟨rfl, rfl⟩⟩
theorem witness_SupervisoryAndUnnumberedRoundTrip :
    (∃ b, exec (.buildS 32767#15) (at_ 0 (listed 2#48 [])) = .next ((at_ 0 (listed 2#48 [])).publish b) ∧
      (at_ 0 (Request.parseOf b 1#15 2#15 3#8)).ready (Request.parseOf b 1#15 2#15 3#8)) ∧
    (∃ b, exec (.buildU 0x04#8) (at_ 0 startReq) = .next ((at_ 0 startReq).publish b) ∧
      (at_ 0 (Request.parseOf b 1#15 2#15 3#8)).ready (Request.parseOf b 1#15 2#15 3#8)) ∧
    (at_ 0 startReq).ready startReq ∧ 0x04#8 ∈ [0x04#8, 0x08#8, 0x10#8, 0x20#8, 0x40#8, 0x80#8] :=
  ⟨⟨_, rfl, ⟨rfl, rfl⟩⟩, ⟨_, rfl, ⟨rfl, rfl⟩⟩, ⟨rfl, rfl⟩, by decide⟩
theorem witness_EveryInstructionCompletes : (at_ 0 (parseReq 255#8 [])).ready (parseReq 255#8 []) := ⟨rfl, rfl⟩
theorem witness_ExecutionTouchesOnlyItsTransaction :
    ∃ t, exec (.parse 6#8) ((at_ 249 (parseReq 6#8 [])).issue startReq) = .next t := ⟨_, rfl⟩
theorem witness_ObufIsZeroAboveItsLength :
    ∃ t p, exec (.parse 8#8) (at_ 249 (parseReq 8#8 [])) = .next t ∧ t.response = some p ∧ p.olen.toNat ≤ 254 :=
  ⟨_, _, rfl, rfl, by decide⟩
theorem witness_MeaninglessFieldsAreZero :
    (∃ t p, exec (.parse 5#8) (at_ 249 (parseReq 5#8 [])) = .next t ∧ t.response = some p ∧ p.status ≠ .ok) ∧
    (∃ t p, exec (.buildU 4#8) (at_ 249 startReq) = .next t ∧ t.response = some p ∧
      (Instr.buildU 4#8).level = .operation ∧ p.cls = .noClass) ∧
    (∃ t p, exec (.parse 6#8) (at_ 249 (parseReq 6#8 [0, 0, 1])) = .next t ∧ t.response = some p ∧ p.cls = .supervisory) ∧
    (∃ t p, exec (.parse 6#8) (at_ 249 (parseReq 6#8 [0, 0, 3])) = .next t ∧ t.response = some p ∧ p.cls = .unnumbered) ∧
    (∃ t p, exec (.parse 6#8) (at_ 249 (parseReq 6#8 [0, 0, 2])) = .next t ∧ t.response = some p ∧ p.cls = .information) :=
  ⟨⟨_, _, rfl, rfl, by decide⟩, ⟨_, _, rfl, rfl, rfl, rfl⟩, ⟨_, _, rfl, rfl, rfl⟩, ⟨_, _, rfl, rfl, rfl⟩, ⟨_, _, rfl, rfl, rfl⟩⟩
theorem witness_ExactlyTwoErrorOutcomes :
    (at_ 249 (buildReq 250#8)).ready (buildReq 250#8) ∧ (at_ 249 (parseReq 5#8 [])).ready (parseReq 5#8 []) ∧
      (at_ 249 (parseReq 6#8 [])).ready (parseReq 6#8 []) := ⟨⟨rfl, rfl⟩, ⟨rfl, rfl⟩, ⟨rfl, rfl⟩⟩
theorem witness_ErrorResponseIsZeroButForItsCode :
    ∃ t p, step (at_ 249 (buildReq 250#8)) = .next t ∧ (at_ 249 (buildReq 250#8)).inFlight.isSome = true ∧
      t.response = some p ∧ p.status ≠ .ok := ⟨_, _, rfl, rfl, rfl, by decide⟩
theorem witness_ResponseIsAFunctionOfRequestAndMaxPayload : (at_ 249 startReq).ready startReq := ⟨rfl, rfl⟩
theorem witness_RequestIsSampledAtAcceptance :
    State.reset.config.legal = true ∧ ((State.reset.issue startReq).issue (buildReq 2#8)).inFlight = none ∧
      ((State.reset.issue startReq).issue (buildReq 2#8)).issued = startReq :: [buildReq 2#8] := ⟨rfl, rfl, rfl⟩
theorem witness_UnusedInputsChangeNothing :
    State.reset.config.legal = true ∧ (parseReq 6#8 [0x68, 4, 1, 0, 0, 0, 0x11]).agree (parseReq 6#8 [0x68, 4, 1]) ∧
      parseReq 6#8 [0x68, 4, 1, 0, 0, 0, 0x11] ≠ parseReq 6#8 [0x68, 4, 1] :=
  ⟨rfl, ⟨rfl, fun _ => ⟨rfl, by decide⟩, by decide, by decide, by decide⟩, by decide⟩
theorem witness_OnlyBuildIReadsMaxPayload :
    Config.legal { maxPayload := 0 } = true ∧ Config.legal { maxPayload := 249 } = true ∧ startReq.op ≠ 0b01#2 := by decide
theorem witness_ResponsesComeInIssueOrder :
    State.reset.config.legal = true ∧ Event.reset ∉ [Event.issue startReq, .codec, .codec] :=
  ⟨rfl, by decide⟩
theorem witness_ErrorsAreNotSticky :
    ∃ p, ((at_ 249 (parseReq 5#8 [])).issue startReq).ready (parseReq 5#8 []) ∧
      ((at_ 249 (parseReq 5#8 [])).issue startReq).issued = startReq :: [] ∧
      respondAlone ((at_ 249 (parseReq 5#8 [])).issue startReq).config (parseReq 5#8 []) = some p ∧ p.status ≠ .ok :=
  ⟨_, ⟨rfl, rfl⟩, rfl, rfl, by decide⟩
theorem witness_ResetDiscardsTheRequestInFlight :
    ((at_ 249 startReq).issue startReq).config.legal = true ∧ ((at_ 249 startReq).issue startReq).issued = startReq :: [] :=
  ⟨rfl, rfl⟩
theorem witness_NoResponseUntilTheFirstCompletion :
    ∃ t, runEvents [.issue startReq, .codec] (at_ 249 startReq).applyReset = .next t ∧
      responses [.issue startReq, .codec] (at_ 249 startReq).applyReset = [] := ⟨_, rfl, rfl⟩
theorem witness_MaxPayloadNeverChanges : ∃ t, runEvents [.issue startReq, .codec, .reset, .codec] (at_ 7 startReq) = .next t :=
  ⟨_, rfl⟩
theorem witness_CodecsAreIndependent :
    ∃ a b, (0 : Nat) ≠ 1 ∧ eventAt 0 .codec [at_ 249 startReq, at_ 9 startReq] = .next a ∧
      eventAt 1 .reset [at_ 249 startReq, at_ 9 startReq] = .next b := ⟨_, _, by decide, rfl, rfl⟩
theorem witness_ReadingTheResponse :
    State.reset.response = none ∧
      ({ State.reset with response := some (Response.error .reserved) } : State).response = some (Response.error .reserved) ∧
      (Response.error .reserved).status = .reserved ∧ (Response.error .errShort).status ≠ .reserved :=
  ⟨rfl, rfl, rfl, by decide⟩
theorem witness_DutifulCallerSeesNoLengthError :
    (at_ 249 startReq).ready startReq ∧ startReq.dutiful ∧ (parseReq 6#8 [0x68, 4, 1]).dutiful ∧
      (parseReq 6#8 [0x68, 4, 1]).op = 0b00#2 :=
  ⟨⟨rfl, rfl⟩, ⟨by decide, by decide⟩, ⟨by decide, by decide⟩, rfl⟩
theorem witness_EveryStepKeepsTheInvariant :
    ∃ t, (at_ 249 (parseReq 6#8 [0x68, 4, 1])).Inv ∧ step (at_ 249 (parseReq 6#8 [0x68, 4, 1])) = .next t :=
  ⟨_, ⟨rfl, by simp [at_], by simp [at_, parseReq, Request.ofApdu]; decide, by simp [at_]⟩, rfl⟩
theorem witness_EveryEventKeepsTheInvariant :
    ∃ t, State.reset.Inv ∧ (∀ r, Event.issue (parseReq 6#8 [0x68]) = .issue r → r.ibuf.wf = true) ∧
      applyEvent (.issue (parseReq 6#8 [0x68])) State.reset = .next t :=
  ⟨_, ⟨rfl, by simp [State.reset], by simp [State.reset], by simp [State.reset]⟩,
    fun r h => by cases h; decide, rfl⟩
theorem witness_AssemblerStatements :
    255 < (List.replicate 256 (0 : Byte)).length ∧ (List.replicate 255 (0 : Byte)).length ≤ 255 ∧ 32767 < 32768 ∧
      32767 ≤ 32767 ∧ 0xFF < 256 ∧ 255 ≤ 0xFF :=
  ⟨by rw [List.length_replicate]; decide, by rw [List.length_replicate], by decide, le_rfl, by decide, le_rfl⟩

end Sys2Proof.Machine.Tests
end

/-! PROOFS. The statements of 00_scope.md: an illegal MAX_PAYLOAD, what a response depends on, and the invariant. -/

namespace Sys2Proof.Machine

/-! ### An illegal configuration (R7) -/

theorem Config.legal_iff (c : Config) : c.legal = true ↔ c.maxPayload ≤ 249 :=
  decide_eq_true_iff

theorem Config.not_legal_of_lt {c : Config} (h : 249 < c.maxPayload) : c.legal = false := by
  rw [← Bool.not_eq_true, Config.legal_iff]; omega

theorem step_of_not_legal {s : State} (h : s.config.legal = false) : step s = .refused .illegalMaxPayload := by
  simp [step, h]

theorem perform_of_not_legal {s : State} (h : s.config.legal = false) (op : Request → Except Fault Response) :
    perform s op = .refused .illegalMaxPayload := by
  simp [perform, h]

theorem exec_of_not_legal {s : State} (h : s.config.legal = false) (i : Instr) :
    exec i s = .refused .illegalMaxPayload := by
  rw [exec_eq_perform, perform_of_not_legal h]

/-- Settles O16: both `step` and every instruction check the configuration first. -/
theorem illegalMaxPayloadRunsNoOperation : Obligations.IllegalMaxPayloadRunsNoOperation := fun _ h =>
  have hl := Config.not_legal_of_lt h
  ⟨step_of_not_legal hl, exec_of_not_legal hl⟩

/-! ### The responses of this block are consistent -/

theorem Response.error_consistent {c : Status} (hok : c ≠ .ok) (hres : c ≠ .reserved) :
    (Response.error c).consistent :=
  ⟨hres, Memory.wf_nil, fun _ _ => rfl, fun _ => rfl, fun h => absurd h hok⟩

/-- A response that is OK is consistent when its buffer is canonical and zero from `olen` on, and it is one of the
two kinds of OK response. -/
theorem Response.consistent_of_ok {p : Response} (hok : p.status = .ok) (hwf : p.obuf.wf = true)
    (hzero : ∀ a, p.olen.toNat ≤ a → p.obuf.read a = 0#8) (hkind : p.holdsFrame ∨ p.holdsParse) : p.consistent :=
  ⟨by simp [hok], hwf, hzero, fun h => absurd hok h, fun _ => hkind⟩

/-- A built frame whose buffer starts with the start marker and the length byte (R134). -/
theorem builtFrame_consistent {n : Nat} {m : Memory} (h6 : 6 ≤ n) (hn : n ≤ 255) (hwf : m.wf = true)
    (hzero : ∀ a, n ≤ a → m.read a = 0#8) (hstart : m.read 0 = 0x68#8) (hlen : (m.read 1).toNat + 2 = n) :
    (builtFrame n m).consistent := by
  have holen : (builtFrame n m).olen.toNat = n := by
    simp only [builtFrame, BitVec.toNat_ofNat]; omega
  have hfields : (builtFrame n m).parseFieldsZero := by
    simp [builtFrame, Response.parseFieldsZero, Response.zero, Checks.code, field]
  refine Response.consistent_of_ok rfl hwf (fun a ha => hzero a (holen ▸ ha)) (.inl ⟨hfields, ?_, hstart, ?_⟩)
  · omega
  · rw [holen]; exact hlen

theorem headerFrame_consistent (c1 c2 c3 c4 : Byte) :
    ∃ p, headerFrame c1 c2 c3 c4 = .ok p ∧ p.consistent := by
  obtain ⟨m, hwf, hread, hm⟩ := headerFrame_spec c1 c2 c3 c4
  refine ⟨_, hm, builtFrame_consistent le_rfl (by omega) hwf (fun a ha => ?_) (by simp [hread]) (by simp [hread])⟩
  simp [hread, List.getD_eq_getElem?_getD, ha]

/-- BUILD_I answers a consistent response on both sides of a legal limit. -/
theorem informationFrame_consistent {maxPayload : Nat} (hl : maxPayload ≤ 249) (ssn rsn : Seq) (ilen : Byte)
    (ibuf : Memory) : ∃ p, informationFrame maxPayload ssn rsn ilen ibuf = .ok p ∧ p.consistent := by
  rcases Nat.lt_or_ge maxPayload ilen.toNat with hover | hfits
  · exact ⟨_, informationFrame_oversize hover ssn rsn ibuf, Response.error_consistent (by decide) (by decide)⟩
  · obtain ⟨m, hwf, hread, hm⟩ := informationFrame_spec hfits hl ssn rsn ibuf
    refine ⟨_, hm, builtFrame_consistent (by omega) (by omega) hwf (fun a ha => ?_) (by simp [hread]) ?_⟩
    · rw [hread, if_neg (by omega), if_neg (by omega)]
    · simp [hread]; omega

theorem classOf_ne_noClass (c1 : Byte) : classOf c1 ≠ .noClass := by
  unfold classOf; split_ifs <;> simp

/-- Every class gives the fields of R104 to R107 to its header, which therefore carry the class of c1 (R61). -/
theorem parsedByClass_consistent {n : Byte} (hn : 6 ≤ n.toNat) (h : ControlHeader) (ibuf : Memory) :
    ∃ p, parsedByClass n h ibuf (classOf h.c1) = .ok p ∧ p.consistent := by
  have hlt := n.isLt
  obtain ⟨m, hwf, hread, hm⟩ := parsedFrame_spec hn h (classOf h.c1) ibuf
  have holen : (BitVec.ofNat 8 (n.toNat - 6)).toNat = n.toNat - 6 := by rw [BitVec.toNat_ofNat]; omega
  have hzero : ∀ a, (BitVec.ofNat 8 (n.toNat - 6)).toNat ≤ a → m.read a = 0#8 := fun a ha => by
    rw [hread, if_neg (by omega)]
  have hbound : (BitVec.ofNat 8 (n.toNat - 6)).toNat ≤ 249 := by omega
  cases hcls : classOf h.c1 with
  | noClass => exact absurd hcls (classOf_ne_noClass _)
  | information =>
    rw [hcls] at hm
    refine ⟨_, by simp only [parsedByClass, parsedInformation, hm]; rfl, ?_⟩
    refine Response.consistent_of_ok rfl hwf hzero (.inr ⟨hbound, hcls.symm, ?_, nofun, nofun⟩)
    exact fun _ => ⟨rfl, rfl, rfl, rfl, rfl⟩
  | supervisory =>
    rw [hcls] at hm
    refine ⟨_, by simp only [parsedByClass, parsedSupervisory, hm]; rfl, ?_⟩
    refine Response.consistent_of_ok rfl hwf hzero (.inr ⟨hbound, hcls.symm, nofun, ?_, nofun⟩)
    exact fun _ => ⟨rfl, rfl, rfl, rfl⟩
  | unnumbered =>
    rw [hcls] at hm
    refine ⟨_, by simp only [parsedByClass, parsedUnnumbered, hm]; rfl, ?_⟩
    refine Response.consistent_of_ok rfl hwf hzero (.inr ⟨hbound, hcls.symm, nofun, nofun, ?_⟩)
    exact fun _ => ⟨rfl, rfl, rfl, rfl⟩

/-- PARSE answers a consistent response to short input and to every class of header. -/
theorem parse_consistent (n : Byte) (ibuf : Memory) :
    ∃ p, (withHeader n ibuf fun h => parsedByClass n h ibuf (classOf h.c1)) = .ok p ∧ p.consistent := by
  rcases Nat.lt_or_ge n.toNat 6 with hshort | hlong
  · exact ⟨_, withHeader_short hshort ibuf _, Response.error_consistent (by decide) (by decide)⟩
  · rw [withHeader_header hlong]
    exact parsedByClass_consistent hlong _ ibuf

/-! ### A step with a request in flight -/

/-- A request decodes to one of the four operations (R71). -/
theorem decodeRequest_level (w : ReqWord) : (decodeRequest w).level = .operation := by
  unfold decodeRequest; dsimp only; split <;> rfl

/-- Under a legal MAX_PAYLOAD each of the four operations computes a consistent response. The frame rows are left
out: a U_Unknown row that is not well-formed answers another function than the one its header names. -/
theorem operationOf_consistent {c : Config} (hc : c.legal = true) {i : Instr} (hi : i.level = .operation)
    (r : Request) : ∃ p, operationOf c i r = .ok p ∧ p.consistent := by
  cases i with
  | parse n => exact parse_consistent n r.ibuf
  | buildI ssn rsn ilen => exact informationFrame_consistent ((Config.legal_iff c).mp hc) ssn rsn ilen r.ibuf
  | buildS rsn => exact headerFrame_consistent ..
  | buildU fbits => exact headerFrame_consistent ..
  | _ => cases hi

theorem step_of_ready {s : State} {r : Request} (h : s.ready r) : step s = exec (decodeRequest r.word) s := by
  obtain ⟨hl, hr⟩ := h
  simp [step, hl, hr]

/-- The response of a request depends on the state through its configuration alone: the operation is
`operationOf s.config`, and a step publishes what it computes. -/
theorem step_publishes {s : State} {r : Request} {p : Response} (h : s.ready r)
    (hp : operationOf s.config (decodeRequest r.word) r = .ok p) : step s = .next (s.publish p) := by
  rw [step_of_ready h, exec_eq_perform]
  exact perform_ok h.1 h.2 hp

theorem respondAlone_eq_some {c : Config} (hc : c.legal = true) {r : Request} {p : Response}
    (hp : operationOf c (decodeRequest r.word) r = .ok p) : respondAlone c r = some p := by
  have hstep := step_publishes (s := { config := c, issued := [], inFlight := some r, response := none }) ⟨hc, rfl⟩ hp
  simp [respondAlone, hstep]

/-- Settles O41: both codecs perform the same operation, which their common configuration fixes. -/
theorem responseIsAFunctionOfRequestAndMaxPayload : Obligations.ResponseIsAFunctionOfRequestAndMaxPayload := by
  intro s r h
  obtain ⟨p, hp, -⟩ := operationOf_consistent h.1 (decodeRequest_level r.word) r
  exact ⟨p, step_publishes h hp, respondAlone_eq_some h.1 hp⟩

/-! ### The invariant -/

theorem State.Inv.publish {s : State} (h : s.Inv) {p : Response} (hp : p.consistent) : (s.publish p).Inv := by
  obtain ⟨hl, hissued, -, -⟩ := h
  exact ⟨hl, hissued, by simp, by simpa using hp⟩

theorem State.Inv.accept {s : State} (h : s.Inv) {r : Request} {rest : List Request} (hi : s.issued = r :: rest) :
    (s.accept r rest).Inv := by
  obtain ⟨hl, hissued, -, hresp⟩ := h
  rw [hi, List.forall_mem_cons] at hissued
  exact ⟨hl, hissued.2, by simpa using hissued.1, hresp⟩

theorem State.Inv.issue {s : State} (h : s.Inv) {r : Request} (hr : r.ibuf.wf = true) : (s.issue r).Inv := by
  obtain ⟨hl, hissued, hflight, hresp⟩ := h
  refine ⟨hl, ?_, hflight, hresp⟩
  rw [State.issue_issued, List.forall_mem_append]
  exact ⟨hissued, by simpa using hr⟩

theorem State.Inv.applyReset {s : State} (h : s.Inv) : s.applyReset.Inv := by
  obtain ⟨hl, hissued, -, -⟩ := h
  exact ⟨hl, hissued, by simp, by simp⟩

/-- Settles O53, by what a step can do: it publishes a consistent response, accepts a waiting request, or waits. -/
theorem everyStepKeepsTheInvariant : Obligations.EveryStepKeepsTheInvariant := by
  intro s t hinv h
  obtain ⟨hl, ⟨r, hr, hexec⟩ | ⟨r, rest, -, hi, rfl⟩ | ⟨-, -, rfl⟩⟩ := step_next_cases h
  · obtain ⟨p, hp, hcons⟩ := operationOf_consistent hl (decodeRequest_level r.word) r
    rw [exec_eq_perform, perform_ok hl hr hp] at hexec
    cases hexec
    exact hinv.publish hcons
  · exact hinv.accept hi
  · exact hinv

/-- Settles O54: an issue and a reset keep the invariant by their effect on each field, a codec event by O53. -/
theorem everyEventKeepsTheInvariant : Obligations.EveryEventKeepsTheInvariant := by
  intro e s t hinv hissue h
  cases e with
  | issue r => cases h; exact hinv.issue (hissue r rfl)
  | reset => cases h; exact hinv.applyReset
  | codec => exact everyStepKeepsTheInvariant s t hinv h

end Sys2Proof.Machine

/-! PROOFS. The statements of 10_state.md: the frame of every instruction, the zero fill of the response, and what
stands after a reset. -/

namespace Sys2Proof.Machine

/-! ### The step and the frame of an execution -/

/-- Settles O12, by the step's own branch for a request in flight. -/
theorem stepRunsTheDecodedRequest : Obligations.StepRunsTheDecodedRequest :=
  fun _ _ => step_of_ready

/-- An instruction that answers a next state had a request in flight, and published the response its operation
computes from it. -/
theorem exec_next {i : Instr} {s t : State} (h : exec i s = .next t) :
    ∃ r p, s.ready r ∧ operationOf s.config i r = .ok p ∧ t = s.publish p := by
  rw [exec_eq_perform] at h
  obtain ⟨r, p, hl, hr, hp, ht⟩ := perform_next h
  exact ⟨r, p, ⟨hl, hr⟩, hp, ht⟩

theorem exec_of_ready {i : Instr} {s : State} {r : Request} {p : Response} (h : s.ready r)
    (hp : operationOf s.config i r = .ok p) : exec i s = .next (s.publish p) := by
  rw [exec_eq_perform]
  exact perform_ok h.1 h.2 hp

/-- Settles O36: the next state is `s.publish p`, which keeps nothing of the old response, and `p` is computed from
the configuration and the request. -/
theorem executionTouchesOnlyItsTransaction : Obligations.ExecutionTouchesOnlyItsTransaction := by
  intro i s t h
  obtain ⟨r, p, hready, hp, rfl⟩ := exec_next h
  refine ⟨rfl, rfl, rfl, by simp [hready.2], p, rfl, fun old => ?_⟩
  have hold : ({ s with response := old } : State).ready r := hready
  exact exec_of_ready hold hp

/-! ### The zero fill of a response (R30) -/

/-- What R30 asks of every response, whatever instruction gave it: no value where the outcome or the frame class
gives a field no meaning, and none in OBUF from `olen` on. -/
def Response.zeroFilled (p : Response) : Prop :=
  (p.status ≠ .ok → p.allZeroButStatus) ∧
  (p.cls = .supervisory → p.ssn = 0#15 ∧ p.func = 0#8 ∧ p.ufn = .noFunction) ∧
  (p.cls = .unnumbered → p.ssn = 0#15 ∧ p.rsn = 0#15) ∧
  (p.cls = .information → p.func = 0#8 ∧ p.ufn = .noFunction) ∧
  (∀ a, p.olen.toNat ≤ a → p.obuf.read a = 0#8)

theorem Response.zero_parseFieldsZero : Response.zero.parseFieldsZero :=
  ⟨rfl, rfl, rfl, rfl, rfl, rfl, rfl, rfl, rfl, rfl, rfl, by decide⟩

theorem Response.error_parseFieldsZero (c : Status) : (Response.error c).parseFieldsZero :=
  Response.zero_parseFieldsZero

theorem Response.error_allZeroButStatus (c : Status) : (Response.error c).allZeroButStatus :=
  ⟨Response.error_parseFieldsZero c, rfl, rfl⟩

theorem builtFrame_parseFieldsZero (n : Nat) (m : Memory) : (builtFrame n m).parseFieldsZero :=
  Response.zero_parseFieldsZero

/-- A response without a class has no class's fields to fill. -/
theorem Response.zeroFilled_of_noClass {p : Response} (hcls : p.cls = .noClass)
    (herr : p.status ≠ .ok → p.allZeroButStatus) (hbuf : ∀ a, p.olen.toNat ≤ a → p.obuf.read a = 0#8) :
    p.zeroFilled := by
  refine ⟨herr, ?_, ?_, ?_, hbuf⟩ <;> simp [hcls]

theorem Response.error_zeroFilled (c : Status) : (Response.error c).zeroFilled :=
  Response.zeroFilled_of_noClass rfl (fun _ => Response.error_allZeroButStatus c) fun _ _ => rfl

/-- A consistent response is zero-filled: it is an error response, a built frame, which has no class, or a parsed
header, whose class fixes its fields. -/
theorem Response.consistent.zeroFilled {p : Response} (h : p.consistent) : p.zeroFilled := by
  obtain ⟨-, -, hbuf, herr, hok⟩ := h
  by_cases hst : p.status = .ok
  · rcases hok hst with ⟨⟨hcls, -⟩, -⟩ | ⟨-, -, hI, hS, hU⟩
    · exact Response.zeroFilled_of_noClass hcls (absurd hst) hbuf
    · refine ⟨absurd hst, fun hc => ?_, fun hc => ?_, fun hc => ?_, hbuf⟩
      · obtain ⟨hssn, -, hfunc, hufn⟩ := hS hc
        exact ⟨hssn, hfunc, hufn⟩
      · obtain ⟨hssn, hrsn, -⟩ := hU hc
        exact ⟨hssn, hrsn⟩
      · obtain ⟨-, -, hfunc, hufn, -⟩ := hI hc
        exact ⟨hfunc, hufn⟩
  · rw [herr hst]
    exact Response.error_zeroFilled _

/-! ### What each instruction answers -/

/-- The builders give no field of PARSE a value, on both sides of BUILD_I's limit. -/
theorem builder_parseFieldsZero {c : Config} (hc : c.legal = true) {i : Instr} (hi : i.level = .operation)
    (hparse : ∀ n, i ≠ .parse n) {r : Request} {p : Response} (hp : operationOf c i r = .ok p) :
    p.parseFieldsZero := by
  have of_headerFrame {c1 c2 c3 c4 : Byte} (h : headerFrame c1 c2 c3 c4 = .ok p) : p.parseFieldsZero := by
    obtain ⟨m, -, -, hm⟩ := headerFrame_spec c1 c2 c3 c4
    cases hm.symm.trans h
    exact builtFrame_parseFieldsZero _ m
  cases i with
  | parse n => exact absurd rfl (hparse n)
  | buildI ssn rsn ilen =>
    rcases Nat.lt_or_ge c.maxPayload ilen.toNat with hover | hfits
    · cases (informationFrame_oversize hover ssn rsn r.ibuf).symm.trans hp
      exact Response.error_parseFieldsZero _
    · obtain ⟨m, -, -, hm⟩ := informationFrame_spec hfits ((Config.legal_iff c).mp hc) ssn rsn r.ibuf
      cases hm.symm.trans hp
      exact builtFrame_parseFieldsZero _ m
  | buildS rsn => exact of_headerFrame hp
  | buildU fbits => exact of_headerFrame hp
  | _ => cases hi

/-- What the three frame classes start from: the class is set, and the fields that only one class has are zero. -/
theorem parsedFrame_fields {n : Byte} (hn : 6 ≤ n.toNat) (h : ControlHeader) (cls : FrameClass) (ibuf : Memory) :
    ∃ p, parsedFrame n h cls ibuf = .ok p ∧ p.status = .ok ∧ p.cls = cls ∧ p.ssn = 0#15 ∧ p.rsn = 0#15 ∧
      p.func = 0#8 ∧ p.ufn = .noFunction ∧ ∀ a, p.olen.toNat ≤ a → p.obuf.read a = 0#8 := by
  obtain ⟨m, -, hread, hm⟩ := parsedFrame_spec hn h cls ibuf
  refine ⟨_, hm, rfl, rfl, rfl, rfl, rfl, rfl, fun a ha => ?_⟩
  have hlt := n.isLt
  simp only [BitVec.toNat_ofNat] at ha
  rw [hread, if_neg (by omega)]

theorem parsedInformation_zeroFilled (ssn rsn : Seq) {n : Byte} (hn : 6 ≤ n.toNat) (h : ControlHeader)
    (ibuf : Memory) : ∃ p, parsedInformation n h ssn rsn ibuf = .ok p ∧ p.zeroFilled := by
  obtain ⟨p, hp, hst, hcls, -, -, hfunc, hufn, hbuf⟩ := parsedFrame_fields hn h .information ibuf
  refine ⟨{ p with ssn := ssn, rsn := rsn }, by simp only [parsedInformation, hp]; rfl, absurd hst, ?_, ?_, ?_, hbuf⟩
  · simp [hcls]
  · simp [hcls]
  · exact fun _ => ⟨hfunc, hufn⟩

theorem parsedSupervisory_zeroFilled (rsn : Seq) {n : Byte} (hn : 6 ≤ n.toNat) (h : ControlHeader)
    (ibuf : Memory) : ∃ p, parsedSupervisory n h rsn ibuf = .ok p ∧ p.zeroFilled := by
  obtain ⟨p, hp, hst, hcls, hssn, -, hfunc, hufn, hbuf⟩ := parsedFrame_fields hn h .supervisory ibuf
  refine ⟨{ p with rsn := rsn }, by simp only [parsedSupervisory, hp]; rfl, absurd hst, ?_, ?_, ?_, hbuf⟩
  · exact fun _ => ⟨hssn, hfunc, hufn⟩
  · simp [hcls]
  · simp [hcls]

theorem parsedUnnumbered_zeroFilled (func : Byte) (ufn : ControlFunction) {n : Byte} (hn : 6 ≤ n.toNat)
    (h : ControlHeader) (ibuf : Memory) : ∃ p, parsedUnnumbered n h func ufn ibuf = .ok p ∧ p.zeroFilled := by
  obtain ⟨p, hp, hst, hcls, hssn, hrsn, -, -, hbuf⟩ := parsedFrame_fields hn h .unnumbered ibuf
  refine ⟨{ p with func := func, ufn := ufn }, by simp only [parsedUnnumbered, hp]; rfl, absurd hst, ?_, ?_, ?_, hbuf⟩
  · simp [hcls]
  · exact fun _ => ⟨hssn, hrsn⟩
  · simp [hcls]

/-- A frame row answers an error to short input, and what its class answers to a whole header. -/
theorem frameOperation_zeroFilled {row : Byte → ControlHeader → Memory → Except Fault Response}
    (hrow : ∀ {n : Byte}, 6 ≤ n.toNat → ∀ h ibuf, ∃ p, row n h ibuf = .ok p ∧ p.zeroFilled)
    (w : ControlWord) (r : Request) : ∃ p, frameOperation w row r = .ok p ∧ p.zeroFilled := by
  rcases Nat.lt_or_ge r.ilen.toNat 6 with hshort | hlong
  · exact ⟨_, withHeader_short hshort r.ibuf _, Response.error_zeroFilled _⟩
  · rw [frameOperation, withHeader_header hlong]
    exact hrow hlong _ _

/-- Under a legal MAX_PAYLOAD every instruction answers a zero-filled response: the four operations because theirs is
consistent, the frame rows by their class. -/
theorem operationOf_zeroFilled {c : Config} (hc : c.legal = true) (i : Instr) (r : Request) :
    ∃ p, operationOf c i r = .ok p ∧ p.zeroFilled := by
  have of_operation (hi : i.level = .operation) : ∃ p, operationOf c i r = .ok p ∧ p.zeroFilled := by
    obtain ⟨p, hp, hcons⟩ := operationOf_consistent hc hi r
    exact ⟨p, hp, hcons.zeroFilled⟩
  cases i with
  | parse | buildI | buildS | buildU => exact of_operation rfl
  | iFrame => exact frameOperation_zeroFilled (parsedInformation_zeroFilled _ _) _ r
  | sFrame => exact frameOperation_zeroFilled (parsedSupervisory_zeroFilled _) _ r
  | uFrame | uStartActivate | uStartConfirm | uStopActivate | uStopConfirm | uTestActivate | uTestConfirm
  | uUnknown => exact frameOperation_zeroFilled (parsedUnnumbered_zeroFilled _ _) _ r

/-- Settles O38: the published response is the one the operation computes, which is zero-filled, and a builder's has
no field of PARSE. -/
theorem meaninglessFieldsAreZero : Obligations.MeaninglessFieldsAreZero := by
  intro i s t p h hp
  obtain ⟨r, _, ⟨hl, -⟩, hop, rfl⟩ := exec_next h
  cases hp
  obtain ⟨q, hq, herr, hclasses⟩ := operationOf_zeroFilled hl i r
  cases hq.symm.trans hop
  exact ⟨herr, fun hi hparse => builder_parseFieldsZero hl hi hparse hop, hclasses⟩

/-! ### Reset and reading (R29) -/

theorem runEvents_cons_next {e : Event} {es : List Event} {s t : State} (h : runEvents (e :: es) s = .next t) :
    ∃ u, applyEvent e s = .next u ∧ runEvents es u = .next t := by
  simp only [runEvents] at h
  split at h
  next u hu => exact ⟨u, hu, h⟩
  all_goals cases h

theorem responses_cons {e : Event} {es : List Event} {s u : State} (h : applyEvent e s = .next u) :
    responses (e :: es) s = publishedBy e s u ++ responses es u := by
  simp only [responses, h]

/-- An event that publishes nothing makes no response appear. -/
theorem applyEvent_response_none {e : Event} {s u : State} (hs : s.response = none) (h : applyEvent e s = .next u)
    (hpub : publishedBy e s u = []) : u.response = none := by
  cases e with
  | issue r => cases h; exact hs
  | reset => cases h; rfl
  | codec =>
    obtain ⟨-, ⟨r, hr, hexec⟩ | ⟨r, rest, -, -, rfl⟩ | ⟨-, -, rfl⟩⟩ := step_next_cases h
    · obtain ⟨_, p, -, -, rfl⟩ := exec_next hexec
      simp [publishedBy, hr] at hpub
    · exact hs
    · exact hs

/-- So no response appears along any events that publish none. -/
theorem runEvents_response_none {es : List Event} {s t : State} (hs : s.response = none)
    (h : runEvents es s = .next t) (hpub : responses es s = []) : t.response = none := by
  induction es generalizing s with
  | nil => cases h; exact hs
  | cons e es ih =>
    obtain ⟨u, hu, ht⟩ := runEvents_cons_next h
    rw [responses_cons hu, List.append_eq_nil_iff] at hpub
    obtain ⟨hnow, hlater⟩ := hpub
    exact ih (applyEvent_response_none hs hu hnow) ht hlater

/-- Settles O48: a reset leaves no response, and events that publish nothing do not make one. -/
theorem noResponseUntilTheFirstCompletion : Obligations.NoResponseUntilTheFirstCompletion :=
  fun _ => ⟨rfl, rfl, fun _ _ => runEvents_response_none rfl⟩

theorem State.readResponse_none {s : State} (h : s.response = none) : s.readResponse = .fault .noResponse := by
  simp [State.readResponse, h]

theorem State.readResponse_reserved {s : State} {p : Response} (h : s.response = some p)
    (hst : p.status = .reserved) : s.readResponse = .refused .reservedStatus := by
  simp [State.readResponse, h, hst]

theorem State.readResponse_some {s : State} {p : Response} (h : s.response = some p)
    (hst : p.status ≠ .reserved) : s.readResponse = .next p := by
  cases hc : p.status with
  | reserved => exact absurd hc hst
  | ok | errOversize | errShort => simp [State.readResponse, h, hc]

/-- Settles O51, one lemma for each of the three cases of the read. -/
theorem readingTheResponse : Obligations.ReadingTheResponse :=
  fun _ => ⟨State.readResponse_none, fun _ h => ⟨State.readResponse_reserved h, State.readResponse_some h⟩⟩

theorem State.reset_inv : State.reset.Inv :=
  ⟨rfl, List.forall_mem_nil _, nofun, nofun⟩

/-- Settles O55: no request waits and no response exists, so only MAX_PAYLOAD is to be checked. -/
theorem resetMeetsTheInvariant : Obligations.ResetMeetsTheInvariant :=
  ⟨State.reset_inv, rfl, rfl, rfl, rfl⟩

end Sys2Proof.Machine

/-! PROOFS. The statements of 20_memory.md: the payload copies and OBUF's zero fill, the inputs that are not read, and
the order of transactions. -/

namespace Sys2Proof.Machine

/-! ### The life of a request (R50) -/

theorem step_of_issued {s : State} {r : Request} {rest : List Request} (hl : s.config.legal = true)
    (hr : s.inFlight = none) (hi : s.issued = r :: rest) : step s = .next (s.accept r rest) := by
  simp [step, hl, hr, hi]

theorem step_of_nothing_pending {s : State} (hl : s.config.legal = true) (hr : s.inFlight = none)
    (hi : s.issued = []) : step s = .next s := by
  simp [step, hl, hr, hi]

/-- Settles O13, by the two branches of the step for a codec with nothing in flight. -/
theorem idleStepAcceptsOrWaits : Obligations.IdleStepAcceptsOrWaits :=
  fun _ hl hr => ⟨step_of_nothing_pending hl hr, fun _ _ hi => ⟨_, step_of_issued hl hr hi, rfl, rfl, rfl, rfl⟩⟩

theorem State.ready_accept {s : State} (hl : s.config.legal = true) (r : Request) (waiting : List Request) :
    (s.accept r waiting).ready r :=
  ⟨hl, rfl⟩

/-- Settles O42: the accepted request is ready whatever waits behind it, so by O41 the next step publishes the
response it gets alone. -/
theorem requestIsSampledAtAcceptance : Obligations.RequestIsSampledAtAcceptance := by
  intro s r rest hl hr hi
  have published (waiting : List Request) :=
    responseIsAFunctionOfRequestAndMaxPayload _ r (State.ready_accept hl r waiting)
  obtain ⟨p, -, hp⟩ := published rest
  refine ⟨_, p, step_of_issued hl hr hi, rfl, hp, fun later => ?_⟩
  obtain ⟨q, hstep, hq⟩ := published later
  cases hp.symm.trans hq
  exact ⟨_, hstep, rfl, rfl⟩

/-! ### Every instruction completes -/

/-- Settles O35: every operation computes a response under a legal MAX_PAYLOAD. -/
theorem everyInstructionCompletes : Obligations.EveryInstructionCompletes := by
  intro i s r h
  obtain ⟨p, hp, -⟩ := operationOf_zeroFilled h.1 i r
  exact ⟨p, exec_of_ready h hp⟩

/-! ### What PARSE leaves in OBUF (R42, R58) -/

/-- OBUF is the payload of an APDU of `n` bytes in IBUF, in canonical form. -/
def Response.holdsPayload (p : Response) (n : Byte) (ibuf : Memory) : Prop :=
  p.obuf.wf = true ∧ ∀ a, p.obuf.read a = if a < n.toNat - 6 then ibuf.read (6 + a) else 0#8

theorem parsedFrame_holdsPayload {n : Byte} (hn : 6 ≤ n.toNat) (h : ControlHeader) (cls : FrameClass)
    (ibuf : Memory) : ∃ p, parsedFrame n h cls ibuf = .ok p ∧ p.holdsPayload n ibuf := by
  obtain ⟨m, hwf, hread, hm⟩ := parsedFrame_spec hn h cls ibuf
  exact ⟨_, hm, hwf, hread⟩

theorem parsedInformation_holdsPayload (ssn rsn : Seq) {n : Byte} (hn : 6 ≤ n.toNat) (h : ControlHeader)
    (ibuf : Memory) : ∃ p, parsedInformation n h ssn rsn ibuf = .ok p ∧ p.holdsPayload n ibuf := by
  obtain ⟨p, hp, hpay⟩ := parsedFrame_holdsPayload hn h .information ibuf
  exact ⟨{ p with ssn := ssn, rsn := rsn }, by simp only [parsedInformation, hp]; rfl, hpay⟩

theorem parsedSupervisory_holdsPayload (rsn : Seq) {n : Byte} (hn : 6 ≤ n.toNat) (h : ControlHeader)
    (ibuf : Memory) : ∃ p, parsedSupervisory n h rsn ibuf = .ok p ∧ p.holdsPayload n ibuf := by
  obtain ⟨p, hp, hpay⟩ := parsedFrame_holdsPayload hn h .supervisory ibuf
  exact ⟨{ p with rsn := rsn }, by simp only [parsedSupervisory, hp]; rfl, hpay⟩

theorem parsedUnnumbered_holdsPayload (func : Byte) (ufn : ControlFunction) {n : Byte} (hn : 6 ≤ n.toNat)
    (h : ControlHeader) (ibuf : Memory) :
    ∃ p, parsedUnnumbered n h func ufn ibuf = .ok p ∧ p.holdsPayload n ibuf := by
  obtain ⟨p, hp, hpay⟩ := parsedFrame_holdsPayload hn h .unnumbered ibuf
  exact ⟨{ p with func := func, ufn := ufn }, by simp only [parsedUnnumbered, hp]; rfl, hpay⟩

theorem parsedByClass_holdsPayload {n : Byte} (hn : 6 ≤ n.toNat) (h : ControlHeader) (ibuf : Memory)
    (cls : FrameClass) : ∃ p, parsedByClass n h ibuf cls = .ok p ∧ p.holdsPayload n ibuf := by
  cases cls with
  | noClass => exact parsedFrame_holdsPayload hn h _ ibuf
  | information => exact parsedInformation_holdsPayload _ _ hn h ibuf
  | supervisory => exact parsedSupervisory_holdsPayload _ hn h ibuf
  | unnumbered => exact parsedUnnumbered_holdsPayload _ _ hn h ibuf

/-- A frame row leaves a canonical OBUF: an empty one after short input, else the one its class leaves. -/
theorem frameOperation_obuf_wf {row : Byte → ControlHeader → Memory → Except Fault Response}
    (hrow : ∀ {n : Byte}, 6 ≤ n.toNat → ∀ h ibuf, ∃ p, row n h ibuf = .ok p ∧ p.holdsPayload n ibuf)
    (w : ControlWord) (r : Request) : ∃ p, frameOperation w row r = .ok p ∧ p.obuf.wf = true := by
  rcases Nat.lt_or_ge r.ilen.toNat 6 with hshort | hlong
  · exact ⟨_, withHeader_short hshort r.ibuf _, Memory.wf_nil⟩
  · obtain ⟨p, hp, hwf, -⟩ := hrow hlong (r.ibuf.header.withControl w) r.ibuf
    exact ⟨p, (withHeader_header hlong r.ibuf _).trans hp, hwf⟩

/-- Under a legal MAX_PAYLOAD every instruction leaves a canonical OBUF: the four operations because their response
is consistent, the frame rows by their class. -/
theorem operationOf_obuf_wf {c : Config} (hc : c.legal = true) (i : Instr) (r : Request) :
    ∃ p, operationOf c i r = .ok p ∧ p.obuf.wf = true := by
  have of_operation (hi : i.level = .operation) : ∃ p, operationOf c i r = .ok p ∧ p.obuf.wf = true := by
    obtain ⟨p, hp, -, hwf, -⟩ := operationOf_consistent hc hi r
    exact ⟨p, hp, hwf⟩
  cases i with
  | parse | buildI | buildS | buildU => exact of_operation rfl
  | iFrame => exact frameOperation_obuf_wf (parsedInformation_holdsPayload _ _) _ r
  | sFrame => exact frameOperation_obuf_wf (parsedSupervisory_holdsPayload _) _ r
  | uFrame | uStartActivate | uStartConfirm | uStopActivate | uStopConfirm | uTestActivate | uTestConfirm
  | uUnknown => exact frameOperation_obuf_wf (parsedUnnumbered_holdsPayload _ _) _ r

/-- Settles O37: the canonical form by the operation's OBUF, the zero fill by O38. -/
theorem obufIsZeroAboveItsLength : Obligations.ObufIsZeroAboveItsLength := by
  intro i s t p h hp
  obtain ⟨-, -, -, -, -, hzero⟩ := meaninglessFieldsAreZero i s t p h hp
  refine ⟨?_, hzero⟩
  obtain ⟨r, _, ⟨hl, -⟩, hop, rfl⟩ := exec_next h
  cases hp
  obtain ⟨q, hq, hwf⟩ := operationOf_obuf_wf hl i r
  cases hq.symm.trans hop
  exact hwf

/-! ### Payloads are copied verbatim (R58) -/

/-- The response an instruction publishes for the request in flight is the one its operation computes from it. -/
theorem operationOf_of_exec {i : Instr} {s : State} {r : Request} {p : Response} (h : s.ready r)
    (hexec : exec i s = .next (s.publish p)) : operationOf s.config i r = .ok p := by
  obtain ⟨r', p', ⟨-, hr'⟩, hop, hpub⟩ := exec_next hexec
  cases h.2.symm.trans hr'
  have hp : p = p' := by simpa using congrArg State.response hpub
  exact hp ▸ hop

theorem parse_payload {n : Byte} {ibuf : Memory} {p : Response}
    (hp : (withHeader n ibuf fun h => parsedByClass n h ibuf (classOf h.c1)) = .ok p) {i : Nat}
    (hi : i < n.toNat - 6) : p.obuf.read i = ibuf.read (6 + i) := by
  have hn : 6 ≤ n.toNat := by omega
  rw [withHeader_header hn] at hp
  obtain ⟨q, hq, -, hread⟩ := parsedByClass_holdsPayload hn ibuf.header ibuf (classOf ibuf.header.c1)
  cases hq.symm.trans hp
  rw [hread, if_pos hi]

theorem informationFrame_payload {maxPayload : Nat} (hl : maxPayload ≤ 249) {ssn rsn : Seq} {ilen : Byte}
    {ibuf : Memory} {p : Response} (hp : informationFrame maxPayload ssn rsn ilen ibuf = .ok p)
    (hst : p.status = .ok) {i : Nat} (hi : i < ilen.toNat) : p.obuf.read (6 + i) = ibuf.read i := by
  rcases Nat.lt_or_ge maxPayload ilen.toNat with hover | hfits
  · cases (informationFrame_oversize hover ssn rsn ibuf).symm.trans hp
    cases hst
  · obtain ⟨m, -, hread, hm⟩ := informationFrame_spec hfits hl ssn rsn ibuf
    cases hm.symm.trans hp
    calc m.read (6 + i) = ibuf.read (6 + i - 6) := by rw [hread, if_neg (by omega), if_pos (by omega)]
      _ = ibuf.read i := by rw [Nat.add_sub_cancel_left]

/-- Settles O32, one lemma for each of the two placements of a payload. -/
theorem payloadsAreCopiedVerbatim : Obligations.PayloadsAreCopiedVerbatim := by
  intro s r p h
  refine ⟨fun n hexec i hi => ?_, fun ssn rsn l hexec hst i hi => ?_⟩
  · exact parse_payload (operationOf_of_exec h hexec) hi
  · exact informationFrame_payload ((Config.legal_iff _).mp h.1) (operationOf_of_exec h hexec) hst hi

/-! ### The inputs an operation reads (R41) -/

theorem memRead_congr {m m' : Memory} {a : Nat} (h : m.read a = m'.read a) : memRead m a = memRead m' a := by
  simp [memRead, h]

/-- The copy loop reads its `n` bytes and no other. -/
theorem copyBytes_congr {m m' : Memory} {src n : Nat} (h : ∀ i, i < n → m.read (src + i) = m'.read (src + i))
    (dst : Nat) (obuf : Memory) : copyBytes m src dst n obuf = copyBytes m' src dst n obuf := by
  induction n with
  | zero => rfl
  | succ n ih =>
    have earlier := ih fun i hi => h i (by omega)
    have last := memRead_congr (h n (by omega))
    simp only [copyBytes, earlier, last]

section
variable {n : Byte} {m m' : Memory} (hm : ∀ a, a < n.toNat → m.read a = m'.read a)
include hm

/-- The head of PARSE reads six bytes, and those only where `n` covers them. -/
theorem withHeader_congr {k k' : ControlHeader → Except Fault Response} (hk : ∀ h, k h = k' h) :
    withHeader n m k = withHeader n m' k' := by
  rcases Nat.lt_or_ge n.toNat 6 with hshort | hlong
  · rw [withHeader_short hshort, withHeader_short hshort]
  · rw [withHeader_header hlong, withHeader_header hlong, hk, hm 0 (by omega), hm 1 (by omega), hm 2 (by omega),
      hm 3 (by omega), hm 4 (by omega), hm 5 (by omega)]

theorem parsedFrame_congr (h : ControlHeader) (cls : FrameClass) : parsedFrame n h cls m = parsedFrame n h cls m' := by
  have payload : ∀ i, i < n.toNat - 6 → m.read (6 + i) = m'.read (6 + i) := fun i hi => hm _ (by omega)
  simp only [parsedFrame, Config.hdrBytes, copyBytes_congr payload]

theorem parsedByClass_congr (h : ControlHeader) (cls : FrameClass) :
    parsedByClass n h m cls = parsedByClass n h m' cls := by
  have frame := parsedFrame_congr hm h
  cases cls with
  | noClass => exact frame _
  | information => simp only [parsedByClass, parsedInformation, frame]
  | supervisory => simp only [parsedByClass, parsedSupervisory, frame]
  | unnumbered => simp only [parsedByClass, parsedUnnumbered, frame]

theorem informationFrame_congr (maxPayload : Nat) (ssn rsn : Seq) :
    informationFrame maxPayload ssn rsn n m = informationFrame maxPayload ssn rsn n m' := by
  have payload : ∀ i, i < n.toNat → m.read (0 + i) = m'.read (0 + i) := fun i hi => hm _ (by omega)
  simp only [informationFrame, copyBytes_congr payload]

end

/-! The operation of a request record, by its `op` (R71). -/

theorem decodeRequest_word_parse {r : Request} (h : r.op = 0b00#2) : decodeRequest r.word = .parse r.ilen := by
  simp [decodeRequest, Request.word, op_requestWord, ilen_requestWord, h]

theorem decodeRequest_word_buildI {r : Request} (h : r.op = 0b01#2) :
    decodeRequest r.word = .buildI r.ssn r.rsn r.ilen := by
  simp [decodeRequest, Request.word, op_requestWord, ssn_requestWord, rsn_requestWord, ilen_requestWord, h]

theorem decodeRequest_word_buildS {r : Request} (h : r.op = 0b10#2) : decodeRequest r.word = .buildS r.rsn := by
  simp [decodeRequest, Request.word, op_requestWord, rsn_requestWord, h]

theorem decodeRequest_word_buildU {r : Request} (h : r.op = 0b11#2) : decodeRequest r.word = .buildU r.fbits := by
  simp [decodeRequest, Request.word, op_requestWord, fbits_requestWord, h]

theorem op_cases : ∀ op : BitVec 2, op = 0b00#2 ∨ op = 0b01#2 ∨ op = 0b10#2 ∨ op = 0b11#2 := by decide

/-- Requests that agree in what their common operation uses get the same response computed. -/
theorem operationOf_congr_of_agree (c : Config) {r r' : Request} (h : r.agree r') :
    operationOf c (decodeRequest r.word) r = operationOf c (decodeRequest r'.word) r' := by
  obtain ⟨hop, hibuf, hssn, hrsn, hfbits⟩ := h
  rcases op_cases r.op with h0 | h1 | h2 | h3
  · obtain ⟨hilen, hread⟩ := hibuf (.inl h0)
    rw [decodeRequest_word_parse h0, decodeRequest_word_parse (hop ▸ h0), ← hilen]
    exact withHeader_congr hread fun h => parsedByClass_congr hread h _
  · obtain ⟨hilen, hread⟩ := hibuf (.inr h1)
    rw [decodeRequest_word_buildI h1, decodeRequest_word_buildI (hop ▸ h1), ← hilen, ← hssn h1, ← hrsn (.inl h1)]
    exact informationFrame_congr hread ..
  · rw [decodeRequest_word_buildS h2, decodeRequest_word_buildS (hop ▸ h2), ← hrsn (.inr h2)]
    rfl
  · rw [decodeRequest_word_buildU h3, decodeRequest_word_buildU (hop ▸ h3), ← hfbits h3]
    rfl

/-- Settles O43: both requests get the one response that is computed from what they agree in. -/
theorem unusedInputsChangeNothing : Obligations.UnusedInputsChangeNothing := by
  intro c r r' hc h
  obtain ⟨p, hp, -⟩ := operationOf_consistent hc (decodeRequest_level r.word) r
  have hr := respondAlone_eq_some hc hp
  have hr' := respondAlone_eq_some hc ((operationOf_congr_of_agree c h).symm.trans hp)
  exact ⟨hr.trans hr'.symm, by simp [hr]⟩

/-! ### Responses in issue order (R51) -/

theorem issuedIn_cons (e : Event) (es : List Event) : issuedIn (e :: es) = issuedIn [e] ++ issuedIn es := by
  cases e <;> rfl

/-- A codec step keeps the account: what it publishes, and then what is still pending performed alone, is what was
pending performed alone. -/
theorem step_keeps_account {s : State} (hl : s.config.legal = true) :
    ∃ t, step s = .next t ∧ t.config = s.config ∧
      (publishedBy .codec s t).map some ++ t.pending.map (respondAlone s.config) =
        s.pending.map (respondAlone s.config) := by
  cases hr : s.inFlight with
  | some r =>
    obtain ⟨p, hstep, hp⟩ := responseIsAFunctionOfRequestAndMaxPayload s r ⟨hl, hr⟩
    exact ⟨_, hstep, rfl, by simp [publishedBy, State.pending, hr, hp]⟩
  | none =>
    cases hi : s.issued with
    | nil => exact ⟨s, step_of_nothing_pending hl hr hi, rfl, by simp [publishedBy, hr]⟩
    | cons r rest => exact ⟨_, step_of_issued hl hr hi, rfl, by simp [publishedBy, State.pending, hr, hi]⟩

/-- Every event but a reset keeps the account, with what it issues counted among what was pending. -/
theorem applyEvent_keeps_account {e : Event} (he : e ≠ .reset) {s : State} (hl : s.config.legal = true) :
    ∃ t, applyEvent e s = .next t ∧ t.config = s.config ∧
      (publishedBy e s t).map some ++ t.pending.map (respondAlone s.config) =
        (s.pending ++ issuedIn [e]).map (respondAlone s.config) := by
  cases e with
  | issue r => exact ⟨_, rfl, rfl, by simp [publishedBy, issuedIn, State.pending]⟩
  | reset => exact absurd rfl he
  | codec => simpa [issuedIn, applyEvent] using step_keeps_account hl

/-- The responses of events without a reset come in issue order, from the first one on. -/
theorem responses_prefix {es : List Event} (hes : Event.reset ∉ es) {s : State} (hl : s.config.legal = true) :
    (responses es s).map some <+: (s.pending ++ issuedIn es).map (respondAlone s.config) := by
  induction es generalizing s with
  | nil => simp [responses]
  | cons e es ih =>
    have he : e ≠ .reset := (List.ne_of_not_mem_cons hes).symm
    obtain ⟨t, ht, hconfig, haccount⟩ := applyEvent_keeps_account he hl
    have later := ih (List.not_mem_of_not_mem_cons hes) (hconfig ▸ hl)
    rw [hconfig] at later
    have total : (s.pending ++ issuedIn (e :: es)).map (respondAlone s.config) =
        (publishedBy e s t).map some ++ (t.pending ++ issuedIn es).map (respondAlone s.config) := by
      rw [issuedIn_cons, ← List.append_assoc, List.map_append, ← haccount, List.append_assoc, ← List.map_append]
    rw [responses_cons ht, List.map_append, total]
    exact (List.prefix_append_right_inj _).mpr later

/-- The codec steps until nothing is pending: two for each request that waits, one for a request in flight. -/
def State.stepsLeft (s : State) : Nat := 2 * s.issued.length + s.inFlight.toList.length

theorem State.pending_of_stepsLeft {s : State} (h : s.stepsLeft = 0) : s.pending = [] := by
  simp only [State.stepsLeft, Nat.add_eq_zero_iff, Nat.mul_eq_zero, OfNat.ofNat_ne_zero, false_or,
    List.length_eq_zero_iff] at h
  obtain ⟨hissued, hflight⟩ := h
  simp [State.pending, hissued, hflight]

/-- A step uses up one of the steps left, if there is one. -/
theorem step_stepsLeft {s t : State} (h : step s = .next t) : t.stepsLeft ≤ s.stepsLeft - 1 := by
  obtain ⟨-, ⟨r, hr, hexec⟩ | ⟨r, rest, hr, hi, rfl⟩ | ⟨hr, hi, rfl⟩⟩ := step_next_cases h
  · obtain ⟨_, p, -, -, rfl⟩ := exec_next hexec
    simp [State.stepsLeft, hr]
  · simp [State.stepsLeft, hr, hi]; omega
  · simp [State.stepsLeft, hr, hi]

/-- A codec left to run for all its steps publishes one response for each pending request, and no other. -/
theorem responses_replicate_codec {k : Nat} {s : State} (hl : s.config.legal = true) (hk : s.stepsLeft ≤ k) :
    (responses (List.replicate k .codec) s).map some = s.pending.map (respondAlone s.config) := by
  induction k generalizing s with
  | zero => simp [responses, State.pending_of_stepsLeft (Nat.le_zero.mp hk)]
  | succ k ih =>
    obtain ⟨t, ht, hconfig, haccount⟩ := step_keeps_account hl
    have fewer := step_stepsLeft ht
    have later := ih (s := t) (hconfig ▸ hl) (by omega)
    rw [hconfig] at later
    rw [List.replicate_succ, responses_cons (e := .codec) ht, List.map_append, later, haccount]

/-- Settles O45: no event but a reset changes the account of published and pending responses, and the codec's steps
run out. -/
theorem responsesComeInIssueOrder : Obligations.ResponsesComeInIssueOrder :=
  fun s hl => ⟨fun _ hes => responses_prefix hes hl, s.stepsLeft, fun _ => responses_replicate_codec hl⟩

/-! ### Several codecs (R52) -/

/-- An event at place `k` stores one state there, fixed by what stands at `k`. Where no codec stands it stores
nothing, as `List.set` does. -/
theorem eventAt_next {k : Nat} {e : Event} {codecs a : List State} (h : eventAt k e codecs = .next a) :
    ∃ t, a = codecs.set k t ∧
      ∀ codecs' : List State, codecs'[k]? = codecs[k]? → eventAt k e codecs' = .next (codecs'.set k t) := by
  unfold eventAt at h ⊢
  cases hk : codecs[k]? with
  | none =>
    have unchanged {l : List State} (hl : l[k]? = none) : l.set k State.reset = l :=
      List.set_eq_of_length_le (List.getElem?_eq_none_iff.mp hl)
    simp only [hk] at h
    cases h
    exact ⟨State.reset, (unchanged hk).symm, fun l hl => by simp only [hl, unchanged hl]⟩
  | some s =>
    simp only [hk] at h
    cases ht : applyEvent e s with
    | next t =>
      simp only [ht] at h
      cases h
      exact ⟨t, rfl, fun l hl => by simp only [hl, ht]⟩
    | fault _ | refused _ => simp only [ht] at h; cases h

/-- Settles O50: each event stores one state at its own place, and stores at two places commute. -/
theorem codecsAreIndependent : Obligations.CodecsAreIndependent := by
  intro i j e f codecs a b hij ha hb
  obtain ⟨t, rfl, ht⟩ := eventAt_next ha
  obtain ⟨u, rfl, hu⟩ := eventAt_next hb
  have hj : (codecs.set i t)[j]? = codecs[j]? := List.getElem?_set_ne hij
  have hi : (codecs.set j u)[i]? = codecs[i]? := List.getElem?_set_ne hij.symm
  exact ⟨hj, hi, _, hu _ hj, by rw [ht _ hi, List.set_comm _ _ hij]⟩

end Sys2Proof.Machine

/-! PROOFS. The statements of 30_encoding.md: the two words and their fields, the decoder and the encoder as inverses,
the frame rows under PARSE, and the assembler. -/

namespace Sys2Proof

/-! ### The fields of a word as arithmetic -/

theorem extractLsb'_eq_ofNat {n : Nat} (w : BitVec n) (lo width : Nat) :
    w.extractLsb' lo width = BitVec.ofNat width (w.toNat / 2 ^ lo) := by
  rw [BitVec.extractLsb', Nat.shiftRight_eq_div_pow]

theorem lowBits_of_mod {n width k : Nat} {w : BitVec n} (h : w.toNat % 2 ^ width = k) :
    w.extractLsb' 0 width = BitVec.ofNat width k := by
  apply BitVec.eq_of_toNat_eq
  simp [← h]

theorem toNat_field {width lo n : Nat} (h : lo + n ≤ width) (v : BitVec n) :
    (field width lo v).toNat = 2 ^ lo * v.toNat := by
  have fits : 2 ^ lo * v.toNat < 2 ^ width :=
    calc 2 ^ lo * v.toNat < 2 ^ lo * 2 ^ n := Nat.mul_lt_mul_of_pos_left v.isLt (Nat.two_pow_pos lo)
      _ = 2 ^ (lo + n) := (Nat.pow_add ..).symm
      _ ≤ 2 ^ width := Nat.pow_le_pow_right (by omega) h
  rw [field, BitVec.toNat_shiftLeft, BitVec.toNat_setWidth_of_le (by omega), Nat.shiftLeft_eq, Nat.mul_comm,
    Nat.mod_eq_of_lt fits]

/-- Fields that do not overlap add up. -/
theorem or_eq_add_of_lt {lo n v : Nat} (hv : v < 2 ^ n) (q : Nat) :
    2 ^ (lo + n) * q ||| 2 ^ lo * v = 2 ^ lo * (2 ^ n * q + v) := by
  have below : 2 ^ lo * v < 2 ^ (lo + n) := by
    rw [Nat.pow_add]; exact Nat.mul_lt_mul_of_pos_left hv (Nat.two_pow_pos lo)
  rw [← Nat.two_pow_add_eq_or_of_lt below, Nat.pow_add, Nat.mul_add, Nat.mul_assoc]

/-! ### Sequence numbers and function codes (R65 to R67) -/

/-- R65 by fields: `{high, low[7:1]}`. -/
theorem seqOf_eq_fields (low high : Byte) : seqOf low high = field 15 7 high ||| field 15 0 (low.extractLsb' 1 7) := by
  ext i hi; simp only [seqOf, field]; interval_cases i <;> simp

theorem toNat_seqOf (low high : Byte) : (seqOf low high).toNat = low.toNat / 2 + 128 * high.toNat := by
  have bits := low.isLt
  rw [seqOf_eq_fields, BitVec.toNat_or, toNat_field (by decide), toNat_field (by decide),
    or_eq_add_of_lt (n := 7) (low.extractLsb' 1 7).isLt, BitVec.extractLsb'_toNat, Nat.shiftRight_eq_div_pow]
  omega

/-- Settles O1: the number of two bytes is below 2 ^ 15. -/
theorem sequenceNumberFromItsTwoBytes : Obligations.SequenceNumberFromItsTwoBytes := by
  intro low high
  exact ⟨toNat_seqOf low high, by omega⟩

/-- Settles O2: each byte by its shift, and the inverse by `seqOf_split_zero`. -/
theorem sequenceNumberIntoItsTwoBytes : Obligations.SequenceNumberIntoItsTwoBytes := by
  intro s
  refine ⟨?_, ?_, seqOf_split_zero s⟩
  · simp only [seqLow, BitVec.toNat_setWidth, BitVec.toNat_shiftLeft, Nat.shiftLeft_eq]
    omega
  · simp only [seqHigh, BitVec.toNat_setWidth, BitVec.toNat_ushiftRight, Nat.shiftRight_eq_div_pow]
    omega

/-- Settles O3, over the 256 bytes. -/
theorem functionCodeAndItsByte : Obligations.FunctionCodeAndItsByte := by
  unfold Obligations.FunctionCodeAndItsByte
  decide

/-! ### The three classes of a control field (R61) -/

/-- The tag of a byte, and its bit 0 apart: the three cases of R61. -/
theorem tag_cases (c : Byte) :
    c.extractLsb' 0 1 = 0#1 ∨ c.extractLsb' 0 2 = 0b01#2 ∨ c.extractLsb' 0 2 = 0b11#2 := by
  revert c; decide

theorem bit0_of_odd_tag {w : ControlWord} (h : w.extractLsb' 0 2 = 0b01#2 ∨ w.extractLsb' 0 2 = 0b11#2) :
    w.extractLsb' 0 1 ≠ 0#1 := by
  intro h0
  have clear : w[0] = false := by simpa using congrArg (·[0]) h0
  rcases h with h | h <;> simpa [clear] using congrArg (·[0]) h

theorem decodeClass_information (a b c d : Byte) (h : a.extractLsb' 0 1 = 0#1) :
    decodeClass (controlWord a b c d) = .iFrame (seqOf a b) (seqOf c d) (c.extractLsb' 0 1) := by
  simp only [decodeClass, bit0_controlWord, h, if_true, ignored_controlWord, c1Of_controlWord, c2Of_controlWord,
    c3Of_controlWord, c4Of_controlWord]

theorem decodeClass_supervisory (a b c d : Byte) (h : a.extractLsb' 0 2 = 0b01#2) :
    decodeClass (controlWord a b c d) = .sFrame (a.extractLsb' 2 6) b (c.extractLsb' 0 1) (seqOf c d) := by
  have tag : (controlWord a b c d).extractLsb' 0 2 = 0b01#2 := by rw [tag_controlWord, h]
  simp only [decodeClass, bit0_of_odd_tag (.inl tag), tag, if_true, if_false, func_controlWord, ignored_controlWord,
    c2Of_controlWord, c3Of_controlWord, c4Of_controlWord]

theorem decodeClass_unnumbered {w : ControlWord} (h : w.extractLsb' 0 2 = 0b11#2) :
    decodeClass w = .uFrame (w.extractLsb' 2 6) (w.extractLsb' 8 24) := by
  simp [decodeClass, bit0_of_odd_tag (.inr h), h]

/-! ### Decoding undoes encoding (R72) -/

theorem decodeAt_encode {i : Instr} (h : i.wellFormed = true) : decodeAt i.level i.encode = .ok i := by
  cases i with
  | parse => exact Laws.RoundTrip.parse _ h
  | buildI => exact Laws.RoundTrip.buildI _ _ _ h
  | buildS => exact Laws.RoundTrip.buildS _ h
  | buildU => exact Laws.RoundTrip.buildU _ h
  | iFrame => exact Laws.RoundTrip.iFrame _ _ _ h
  | sFrame => exact Laws.RoundTrip.sFrame _ _ _ _ h
  | uFrame => exact Laws.RoundTrip.uFrame _ _ h
  | uStartActivate => exact Laws.RoundTrip.uStartActivate _ h
  | uStartConfirm => exact Laws.RoundTrip.uStartConfirm _ h
  | uStopActivate => exact Laws.RoundTrip.uStopActivate _ h
  | uStopConfirm => exact Laws.RoundTrip.uStopConfirm _ h
  | uTestActivate => exact Laws.RoundTrip.uTestActivate _ h
  | uTestConfirm => exact Laws.RoundTrip.uTestConfirm _ h
  | uUnknown => exact Laws.RoundTrip.uUnknown _ _ h

theorem decodeControl_of_function {w : ControlWord} {i : Instr} (h : decodeFunction w = .ok i) :
    decodeControl w = i := by
  simp [decodeControl, h]

/-- Under another tag than 11 there is no second level. -/
theorem decodeControl_of_tag_ne {w : ControlWord} (h : w.extractLsb' 0 2 ≠ 0b11#2) :
    decodeControl w = decodeClass w := by
  simp [decodeControl, decodeFunction, h]

/-- The whole decoder answers what the decoder of a level answers, but for the row U_FRAME (assumption 11). -/
theorem decode_of_decodeAt {l : Level} {e : Encoded} {i : Instr} (hU : ∀ f x, i ≠ .uFrame f x)
    (h : decodeAt l e = .ok i) : decode e = i := by
  cases l with
  | operation =>
    cases e with
    | reqw w => cases h; rfl
    | cw w => cases h
  | function =>
    cases e with
    | reqw w => cases h
    | cw w => exact decodeControl_of_function h
  | frameClass =>
    cases e with
    | reqw w => cases h
    | cw w =>
      cases h
      exact decodeControl_of_tag_ne fun tag => hU _ _ (decodeClass_unnumbered tag)

/-- Settles O9: the decoder of the level by the row, and the whole decoder agrees with it where the row is not
U_FRAME. -/
theorem decodingUndoesEncoding : Obligations.DecodingUndoesEncoding :=
  fun _ hi => ⟨decodeAt_encode hi, fun hU => decode_of_decodeAt hU (decodeAt_encode hi)⟩

theorem decode_encode {i : Instr} (hwf : i.wellFormed = true) (hU : ∀ f x, i ≠ .uFrame f x) : decode i.encode = i :=
  (decodingUndoesEncoding i hwf).2 hU

/-- A request word that encodes a well-formed instruction decodes to it. -/
theorem decodeRequest_of_encode {i : Instr} (hwf : i.wellFormed = true) {w : ReqWord} (h : i.encode = .reqw w) :
    decodeRequest w = i := by
  have hU : ∀ f x, i ≠ .uFrame f x := by rintro f x rfl; cases h
  simpa only [h, decode] using decode_encode hwf hU

/-! ### Encoding undoes decoding (R77) -/

/-- Every control field is four bytes. -/
theorem exists_controlWord (w : ControlWord) : ∃ a b c d, w = controlWord a b c d :=
  ⟨_, _, _, _, (controlWord_of_bytes w).symm⟩

theorem seqLow_seqOf_even {l h : Byte} (hl : l.extractLsb' 0 1 = 0#1) : seqLow (seqOf l h) = l := by
  simpa [hl, field] using seqLow_seqOf l h

theorem iControl_of_bytes {a b c d : Byte} (h : a.extractLsb' 0 1 = 0#1) :
    iControl (seqOf a b) (seqOf c d) (c.extractLsb' 0 1) = controlWord a b c d := by
  rw [iControl, seqLow_seqOf_even h, seqLow_seqOf, seqHigh_seqOf, seqHigh_seqOf]

theorem sFrame_byte_of_fields {a : Byte} (h : a.extractLsb' 0 2 = 0b01#2) :
    field 8 2 (a.extractLsb' 2 6) ||| 0b01#8 = a := by
  revert a; decide

theorem sControl_of_bytes {a b c d : Byte} (h : a.extractLsb' 0 2 = 0b01#2) :
    sControl (a.extractLsb' 2 6) b (c.extractLsb' 0 1) (seqOf c d) = controlWord a b c d := by
  rw [sControl, sFrame_byte_of_fields h, seqLow_seqOf, seqHigh_seqOf]

/-- The class row of a control field is a well-formed row with that word. -/
theorem encode_decodeClass (w : ControlWord) :
    (decodeClass w).encode = .cw w ∧ (decodeClass w).wellFormed = true := by
  obtain ⟨a, b, c, d, rfl⟩ := exists_controlWord w
  rcases tag_cases a with h | h | h
  · rw [decodeClass_information _ _ _ _ h]
    exact ⟨congrArg Encoded.cw (iControl_of_bytes h), rfl⟩
  · rw [decodeClass_supervisory _ _ _ _ h]
    exact ⟨congrArg Encoded.cw (sControl_of_bytes h), rfl⟩
  · have tag : (controlWord a b c d).extractLsb' 0 2 = 0b11#2 := by rw [tag_controlWord, h]
    rw [decodeClass_unnumbered tag]
    exact ⟨congrArg Encoded.cw (uControl_of_fields _ tag), rfl⟩

end Sys2Proof

namespace Sys2Proof.Machine

/-! ### The second level of the decoder (R72, R77) -/

/-- Function bits that name nothing are U_Unknown's function (R107, R166). -/
theorem functionOf_unknown : ∀ func : BitVec 6, namedFunctionBits.contains func = false →
    functionOf (field 8 2 func) = .unknown := by decide

/-- Every word under the tag 11 is the word of a well-formed function row (R72), whose meaning is that of U_FRAME on
that word. -/
theorem exists_functionRow (func : BitVec 6) (fixed : BitVec 24) :
    ∃ i : Instr, i.wellFormed = true ∧ (∀ f x, i ≠ .uFrame f x) ∧ i.encode = .cw (uControl func fixed) ∧
      ∀ c, operationOf c i = operationOf c (.uFrame func fixed) := by
  cases h : namedFunctionBits.contains func with
  | false =>
    refine ⟨.uUnknown func fixed, by simpa [Instr.wellFormed] using h, nofun, rfl, fun c => ?_⟩
    simp only [operationOf, functionOf_unknown func h]
  | true =>
    simp only [namedFunctionBits, List.contains_cons, List.contains_nil, Bool.or_false, Bool.or_eq_true,
      beq_iff_eq] at h
    rcases h with rfl | rfl | rfl | rfl | rfl | rfl
    · exact ⟨.uStartActivate fixed, rfl, nofun, rfl, fun _ => rfl⟩
    · exact ⟨.uStartConfirm fixed, rfl, nofun, rfl, fun _ => rfl⟩
    · exact ⟨.uStopActivate fixed, rfl, nofun, rfl, fun _ => rfl⟩
    · exact ⟨.uStopConfirm fixed, rfl, nofun, rfl, fun _ => rfl⟩
    · exact ⟨.uTestActivate fixed, rfl, nofun, rfl, fun _ => rfl⟩
    · exact ⟨.uTestConfirm fixed, rfl, nofun, rfl, fun _ => rfl⟩

/-- What the whole decoder answers: a well-formed row with that word, and with the meaning of the class row. -/
theorem decodeControl_spec (w : ControlWord) :
    (decodeControl w).encode = .cw w ∧ (decodeControl w).wellFormed = true ∧
      ∀ c, operationOf c (decodeControl w) = operationOf c (decodeClass w) := by
  by_cases tag : w.extractLsb' 0 2 = 0b11#2
  · obtain ⟨i, hwf, hU, hcode, hop⟩ := exists_functionRow (w.extractLsb' 2 6) (w.extractLsb' 8 24)
    rw [uControl_of_fields w tag] at hcode
    have hi : decodeControl w = i := by simpa only [hcode, decode] using decode_encode hwf hU
    rw [hi, decodeClass_unnumbered tag]
    exact ⟨hcode, hwf, hop⟩
  · rw [decodeControl_of_tag_ne tag]
    obtain ⟨hcode, hwf⟩ := encode_decodeClass w
    exact ⟨hcode, hwf, fun _ => rfl⟩

/-- Settles O10, by the row of each of the two decoders. -/
theorem encodingUndoesDecodingOfTheWire : Obligations.EncodingUndoesDecodingOfTheWire := by
  intro w
  obtain ⟨hclass, hclassWf⟩ := encode_decodeClass w
  obtain ⟨hrow, hrowWf, -⟩ := decodeControl_spec w
  exact ⟨hclass, hclassWf, hrow, hrowWf⟩

/-! ### PARSE is the row of its control field (R72) -/

theorem ControlHeader.withControl_control (h : ControlHeader) : h.withControl h.control = h := by
  simp only [ControlHeader.withControl, ControlHeader.control, c1Of_controlWord, c2Of_controlWord, c3Of_controlWord,
    c4Of_controlWord]

/-- A frame row with the header's own control field gets the header as it was received. -/
theorem frameOperation_of_header {r : Request} (hn : 6 ≤ r.ilen.toNat) {w : ControlWord}
    (hw : w = r.ibuf.header.control) (row : Byte → ControlHeader → Memory → Except Fault Response) :
    frameOperation w row r = row r.ilen r.ibuf.header r.ibuf := by
  rw [hw, frameOperation, withHeader_header hn]
  exact congrArg (row r.ilen · r.ibuf) (ControlHeader.withControl_control r.ibuf.header)

theorem operationOf_parse (c : Config) {r : Request} (hn : 6 ≤ r.ilen.toNat) :
    operationOf c (.parse r.ilen) r = parsedByClass r.ilen r.ibuf.header r.ibuf (classOf r.ibuf.header.c1) :=
  withHeader_header hn r.ibuf _

/-- The function code of a byte is its function bits over two zeros (R67). -/
theorem field_func (c : Byte) : field 8 2 (c.extractLsb' 2 6) = funcOf c := by
  revert c; decide

/-- PARSE of a whole header computes what the class row of its control field computes. -/
theorem operationOf_decodeClass (c : Config) {r : Request} (hn : 6 ≤ r.ilen.toNat) :
    operationOf c (.parse r.ilen) r = operationOf c (decodeClass r.ibuf.header.control) r := by
  rw [operationOf_parse c hn]
  rcases tag_cases r.ibuf.header.c1 with h | h | h
  · rw [classOf_information h, ControlHeader.control, decodeClass_information _ _ _ _ h]
    simp only [operationOf, frameOperation_of_header hn (iControl_of_bytes h), parsedByClass]
  · rw [classOf_supervisory h, ControlHeader.control, decodeClass_supervisory _ _ _ _ h]
    simp only [operationOf, frameOperation_of_header hn (sControl_of_bytes h), parsedByClass]
  · have tag : r.ibuf.header.control.extractLsb' 0 2 = 0b11#2 := by rw [ControlHeader.control, tag_controlWord, h]
    rw [classOf_unnumbered h, decodeClass_unnumbered tag]
    have func : r.ibuf.header.control.extractLsb' 2 6 = r.ibuf.header.c1.extractLsb' 2 6 := func_controlWord ..
    simp only [operationOf, operationOf.functionOperation]
    rw [frameOperation_of_header hn (uControl_of_fields _ tag), func, field_func, parsedByClass]

/-- Settles O15: both rows perform the operation PARSE performs on the request in flight. -/
theorem parseIsTheRowOfItsControlField : Obligations.ParseIsTheRowOfItsControlField := by
  intro s r hready hn
  obtain ⟨-, -, hrow⟩ := decodeControl_spec r.ibuf.header.control
  have hclass : exec (.parse r.ilen) s = exec (decodeClass r.ibuf.header.control) s := by
    rw [exec_eq_perform, exec_eq_perform]
    refine perform_congr fun r' hr' => ?_
    cases hready.2.symm.trans hr'
    exact operationOf_decodeClass s.config hn
  exact ⟨hclass, by rw [hclass, exec_eq_perform, exec_eq_perform, hrow]⟩

/-! ### Classes, operations and functions by their bits (R61, R71, R78) -/

/-- Settles O4: the class and the row of each tag, and a count over the 256 bytes. -/
theorem frameClassByTheTagOfC1 : Obligations.FrameClassByTheTagOfC1 := by
  refine ⟨fun c1 c2 c3 c4 => ⟨fun h => ?_, fun h => ?_, fun h => ?_⟩, rfl, rfl, rfl⟩
  · have bit0 : c1.extractLsb' 0 1 = 0#1 := lowBits_of_mod h
    exact ⟨classOf_information bit0, _, _, _, decodeClass_information _ _ _ _ bit0⟩
  · have tag : c1.extractLsb' 0 2 = 0b01#2 := lowBits_of_mod h
    exact ⟨classOf_supervisory tag, _, _, _, _, decodeClass_supervisory _ _ _ _ tag⟩
  · have tag : c1.extractLsb' 0 2 = 0b11#2 := lowBits_of_mod h
    exact ⟨classOf_unnumbered tag, _, _, decodeClass_unnumbered ((tag_controlWord ..).trans tag)⟩

/-- The word of a request is the sum of its fields at their places (R70). -/
theorem Request.toNat_word (r : Request) :
    r.word.toNat = r.op.toNat + 2 ^ 2 * r.ssn.toNat + 2 ^ 17 * r.rsn.toNat + 2 ^ 32 * r.fbits.toNat +
      2 ^ 40 * r.ilen.toNat := by
  simp only [Request.word, requestWord, BitVec.toNat_or]
  rw [toNat_field (by decide), toNat_field (by decide), toNat_field (by decide), toNat_field (by decide),
    toNat_field (by decide), or_eq_add_of_lt (n := 8) r.fbits.isLt, or_eq_add_of_lt (n := 15) r.rsn.isLt,
    or_eq_add_of_lt (n := 15) r.ssn.isLt, or_eq_add_of_lt (n := 2) r.op.isLt]
  omega

/-- Settles O5: the operation by the two low bits, the word as the sum of its fields. -/
theorem requestOperationByItsTwoBits : Obligations.RequestOperationByItsTwoBits := by
  refine ⟨fun w => ⟨fun h => ?_, fun h => ?_, fun h => ?_, fun h => ?_⟩, fun r => ⟨r.toNat_word,
    decodeRequest_word_parse, decodeRequest_word_buildI, decodeRequest_word_buildS, decodeRequest_word_buildU⟩⟩
  all_goals
    have op := lowBits_of_mod (width := 2) h
    simp only [← extractLsb'_eq_ofNat, decodeRequest, op]
    rfl

/-- Settles O6, over the 64 values of the function bits. -/
theorem sixNamedFunctionsAndFiftyEightUnknown : Obligations.SixNamedFunctionsAndFiftyEightUnknown := by
  unfold Obligations.SixNamedFunctionsAndFiftyEightUnknown
  decide

/-- Settles O8: the decoder is run on the eight words. -/
theorem writtenOutWordsDecode : Obligations.WrittenOutWordsDecode := by
  unfold Obligations.WrittenOutWordsDecode
  decide

/-! ### The codes of a response (R73 to R76) -/

theorem Checks.ofCode_code (c : Checks) : Checks.ofCode c.code = c := by
  obtain ⟨start, len, fixed⟩ := c
  revert start len fixed
  decide

theorem Checks.code_bits (c : Checks) :
    (c.code.toNat % 2 = 1 ↔ c.startBad = true) ∧ (c.code.toNat / 2 % 2 = 1 ↔ c.lenMismatch = true) ∧
      (c.code.toNat / 4 = 1 ↔ c.fixedBad = true) := by
  obtain ⟨start, len, fixed⟩ := c
  revert start len fixed
  decide

/-- Settles O11: every code is enumerated, and every value by its constructors. -/
theorem responseFieldCodes : Obligations.ResponseFieldCodes := by
  refine ⟨rfl, rfl, rfl, by decide, by decide, by decide, by decide, fun v => ?_, fun v => ?_, fun v => ?_,
    Checks.ofCode_code, Checks.code_bits⟩
  · cases v <;> rfl
  · cases v <;> rfl
  · cases v <;> rfl

/-! ### A placed word (R72, R25) -/

@[simp] theorem encodedOf_request (w : ReqWord) : encodedOf 48 w.toNat = .ok (.reqw w) := by
  simp [encodedOf]

@[simp] theorem encodedOf_control (w : ControlWord) : encodedOf 32 w.toNat = .ok (.cw w) := by
  simp [encodedOf]

theorem requestWord_of_fields (w : ReqWord) : requestWord (w.extractLsb' 0 2) (w.extractLsb' 2 15)
    (w.extractLsb' 17 15) (w.extractLsb' 32 8) (w.extractLsb' 40 8) = w := by
  ext i hi; simp only [requestWord, field]; interval_cases i <;> simp

/-- A listing's request has the word it was listed with (R70). -/
theorem Request.word_ofWord (w : ReqWord) (ibuf : Memory) : (Request.ofWord w ibuf).word = w :=
  requestWord_of_fields w

/-- The carrier of a control field is PARSE of a whole header with that control field. -/
theorem carrier_control (w : ControlWord) : (carrier (.cw w)).ibuf.header.control = w := by
  simp only [carrier, Request.ofApdu, Memory.header, Memory.read_ofBytes, ControlHeader.control]
  exact controlWord_of_bytes w

theorem six_le_carrier_control_ilen {w : ControlWord} : 6 ≤ (carrier (.cw w)).ilen.toNat :=
  le_rfl

theorem State.withFetchWord_ready {s : State} (hl : s.config.legal = true) {bits w : Nat} {e : Encoded}
    (h : encodedOf bits w = .ok e) : (s.withFetchWord bits w).ready (carrier e) := by
  simp only [State.withFetchWord, h]
  exact ⟨hl, rfl⟩

/-- Settles O14: the placed word's carrier is the request in flight. A control field's is PARSE of its row, by
O15. -/
theorem placedWordIsTheInstructionRun : Obligations.PlacedWordIsTheInstructionRun := by
  intro s hl
  refine ⟨fun w => ⟨by simp [decodeTableWord, decode], ?_⟩, fun w => ⟨by simp [decodeTableWord, decode], ?_⟩⟩
  · rw [step_of_ready (State.withFetchWord_ready hl (encodedOf_request w)), carrier, Request.word_ofWord]
  · have hready := State.withFetchWord_ready hl (encodedOf_control w)
    obtain ⟨-, hrow⟩ := parseIsTheRowOfItsControlField _ _ hready six_le_carrier_control_ilen
    rw [carrier_control] at hrow
    rw [step_of_ready hready, decodeRequest_word_parse rfl, hrow]

/-! ### The assembler (R80, R81) -/

/-- The bytes of a list are read back from the buffer that holds them. -/
theorem Memory.bytes_ofBytes (bytes : List Byte) : (Memory.ofBytes bytes).bytes bytes.length = bytes := by
  refine List.ext_getElem (by simp [Memory.bytes]) fun i _ hi => ?_
  simp [Memory.bytes, Memory.read_ofBytes, hi]

/-- A request that holds a list of at most 255 bytes: its buffer is canonical, reads as the list and then zero, and
the listing shows the list (R70). -/
theorem Request.holdsList {r : Request} {bytes : List Byte} (h : bytes.length ≤ 255)
    (hilen : r.ilen = BitVec.ofNat 8 bytes.length) (hibuf : r.ibuf = Memory.ofBytes bytes) :
    r.ibuf.wf = true ∧ (∀ a, r.ibuf.read a = bytes.getD a 0#8) ∧ r.listing = (r.word, bytes) := by
  have hlen : r.ilen.toNat = bytes.length := by rw [hilen, BitVec.toNat_ofNat]; omega
  rw [Request.listing, hlen, hibuf, Memory.bytes_ofBytes]
  exact ⟨Memory.wf_ofBytes bytes h, Memory.read_ofBytes bytes, rfl⟩

theorem assemble_parse {bytes : List Byte} (h : bytes.length ≤ 255) :
    (AsmStatement.parse bytes).assemble = .ok (Request.ofApdu bytes) :=
  if_neg (Nat.not_lt.mpr h)

theorem assemble_buildI {ssn rsn : Nat} {payload : List Byte} (hssn : ssn ≤ 32767) (hrsn : rsn ≤ 32767)
    (h : payload.length ≤ 255) : (AsmStatement.buildI ssn rsn payload).assemble =
      .ok { op := 0b01#2, ssn := BitVec.ofNat 15 ssn, rsn := BitVec.ofNat 15 rsn, fbits := 0#8,
            ilen := BitVec.ofNat 8 payload.length, ibuf := Memory.ofBytes payload } :=
  (if_neg (by omega)).trans (if_neg (Nat.not_lt.mpr h))

theorem assemble_buildS {rsn : Nat} (h : rsn ≤ 32767) : (AsmStatement.buildS rsn).assemble =
    .ok { op := 0b10#2, ssn := 0#15, rsn := BitVec.ofNat 15 rsn, fbits := 0#8, ilen := 0#8, ibuf := [] } :=
  if_neg (Nat.not_lt.mpr h)

theorem assemble_buildU {fbits : Nat} (h : fbits ≤ 0xFF) : (AsmStatement.buildU fbits).assemble =
    .ok { op := 0b11#2, ssn := 0#15, rsn := 0#15, fbits := BitVec.ofNat 8 fbits, ilen := 0#8, ibuf := [] } :=
  if_neg (Nat.not_lt.mpr h)

/-- BUILD_U of function bits within their byte (R80): the last clause of O57, and each line of O56. -/
theorem assemble_buildU_spec {fbits : Nat} (h : fbits ≤ 0xFF) :
    ∃ r, (AsmStatement.buildU fbits).assemble = .ok r ∧ decodeRequest r.word = .buildU (BitVec.ofNat 8 fbits) ∧
      (Instr.buildU (BitVec.ofNat 8 fbits)).encode = .reqw r.word ∧ r.ibuf = [] :=
  ⟨_, assemble_buildU h, decodeRequest_of_encode rfl rfl, rfl, rfl⟩

/-- Settles O57: one equation for each statement's request and for each refusal. -/
theorem assemblerStatements : Obligations.AssemblerStatements := by
  refine ⟨fun bytes => ⟨fun h => if_pos h, fun h => ?_⟩,
    fun ssn rsn payload => ⟨fun h => if_pos h, fun hssn hrsn h => ?_, fun hssn hrsn h => ?_⟩,
    fun rsn => ⟨fun h => if_pos h, fun h => ?_⟩, fun fbits => ⟨fun h => if_pos h, assemble_buildU_spec⟩⟩
  · exact ⟨_, assemble_parse h, decodeRequest_of_encode rfl rfl, rfl, Request.holdsList h rfl rfl⟩
  · exact (if_neg (by omega)).trans (if_pos h)
  · exact ⟨_, assemble_buildI hssn hrsn h, decodeRequest_of_encode rfl rfl, rfl, Request.holdsList h rfl rfl⟩
  · exact ⟨_, assemble_buildS h, decodeRequest_of_encode rfl rfl, rfl, rfl⟩

/-- Settles O56: each of the six expands to a BUILD_U of one byte. -/
theorem pseudoInstructionsAreBuildU : Obligations.PseudoInstructionsAreBuildU := by
  intro row hrow
  obtain ⟨hexpand, hbyte⟩ : row.1.expand = .buildU row.2 ∧ row.2 ≤ 0xFF := by
    revert row; decide
  exact ⟨hexpand, hexpand ▸ assemble_buildU_spec hbyte⟩

end Sys2Proof.Machine

/-! PROOFS. The statements of 40_parse.md: what PARSE answers to short input and to a whole header, the three class
rows, and what PARSE does not read. -/

namespace Sys2Proof

/-! ### The control bytes of a class row as arithmetic (R62 to R64) -/

theorem seqLow_eq_ofNat (s : Seq) : seqLow s = BitVec.ofNat 8 (2 * s.toNat) := by
  obtain ⟨low, -, -⟩ := sequenceNumberIntoItsTwoBytes s
  apply BitVec.eq_of_toNat_eq
  rw [low, BitVec.toNat_ofNat]
  omega

theorem seqHigh_eq_ofNat (s : Seq) : seqHigh s = BitVec.ofNat 8 (s.toNat / 128) := by
  obtain ⟨-, high, -⟩ := sequenceNumberIntoItsTwoBytes s
  apply BitVec.eq_of_toNat_eq
  rw [high, BitVec.toNat_ofNat]
  omega

/-- The ignored bit stands where the low byte of a sequence number has its zero. -/
theorem seqLow_or_ignored (s : Seq) (g : BitVec 1) :
    seqLow s ||| field 8 0 g = BitVec.ofNat 8 (2 * s.toNat + g.toNat) := by
  obtain ⟨low, -, -⟩ := sequenceNumberIntoItsTwoBytes s
  apply BitVec.eq_of_toNat_eq
  rw [BitVec.toNat_or, low, toNat_field (by decide), BitVec.toNat_ofNat]
  refine (or_eq_add_of_lt (lo := 0) g.isLt (s.toNat % 128)).trans ?_
  omega

theorem field_func_eq_ofNat (f : BitVec 6) : field 8 2 f = BitVec.ofNat 8 (4 * f.toNat) := by
  revert f; decide

theorem sFrame_c1_eq_ofNat (f : BitVec 6) : field 8 2 f ||| 0b01#8 = BitVec.ofNat 8 (4 * f.toNat + 1) := by
  revert f; decide

theorem uFrame_c1_eq_ofNat (f : BitVec 6) : field 8 2 f ||| 0b11#8 = BitVec.ofNat 8 (4 * f.toNat + 3) := by
  revert f; decide

theorem c2Of_uControl (func : BitVec 6) (fixed : BitVec 24) :
    c2Of (uControl func fixed) = fixed.extractLsb' 0 8 := by
  ext i hi; simp only [c2Of, uControl, field]; interval_cases i <;> simp

theorem c3Of_uControl (func : BitVec 6) (fixed : BitVec 24) :
    c3Of (uControl func fixed) = fixed.extractLsb' 8 8 := by
  ext i hi; simp only [c3Of, uControl, field]; interval_cases i <;> simp

theorem c4Of_uControl (func : BitVec 6) (fixed : BitVec 24) :
    c4Of (uControl func fixed) = fixed.extractLsb' 16 8 := by
  ext i hi; simp only [c4Of, uControl, field]; interval_cases i <;> simp

end Sys2Proof

namespace Sys2Proof.Machine

/-! ### Short input (R101) -/

theorem exec_errShort {i : Instr} {s : State} {r : Request} (h : s.ready r)
    (hop : operationOf s.config i r = .ok (Response.error .errShort)) :
    ∃ p, exec i s = .next (s.publish p) ∧ p.status = .errShort ∧ p.allZeroButStatus :=
  ⟨_, exec_of_ready h hop, rfl, Response.error_allZeroButStatus _⟩

/-- Settles O17: the head of PARSE answers the error. -/
theorem parseOfShortInputIsErrShort : Obligations.ParseOfShortInputIsErrShort :=
  fun _ r _ h hn => exec_errShort h (withHeader_short hn r.ibuf _)

/-- Settles O24: a frame row has the head of PARSE. -/
theorem frameRowOfShortInputIsErrShort : Obligations.FrameRowOfShortInputIsErrShort := by
  intro i s r hi h hn
  cases i with
  | parse | buildI | buildS | buildU => cases hi
  | iFrame | sFrame | uFrame | uStartActivate | uStartConfirm | uStopActivate | uStopConfirm | uTestActivate
  | uTestConfirm | uUnknown => exact exec_errShort h (withHeader_short hn r.ibuf _)

/-! ### The answer to a whole header, by class (R104 to R108, R110) -/

theorem fixedBad_supervisory (h : ControlHeader) :
    fixedBad h .supervisory = true ↔ h.c1 ≠ 0x01#8 ∨ h.c2 ≠ 0x00#8 := by
  simp [fixedBad]

theorem fixedBad_unnumbered (h : ControlHeader) :
    fixedBad h .unnumbered = true ↔ h.c2 ≠ 0x00#8 ∨ h.c3 ≠ 0x00#8 ∨ h.c4 ≠ 0x00#8 := by
  simp [fixedBad, or_assoc]

section
variable {n : Byte} (hn : 6 ≤ n.toNat) (h : ControlHeader) (ibuf : Memory)
include hn

/-- What the classes share is the split of the APDU, FIXED_BAD of the class, and no other field. -/
theorem parsedFrame_splitsApdu (cls : FrameClass) :
    ∃ p, parsedFrame n h cls ibuf = .ok p ∧ p.splitsApdu n.toNat h ibuf ∧ p.cls = cls ∧ p.ssn = 0#15 ∧
      p.rsn = 0#15 ∧ p.func = 0#8 ∧ p.ufn = .noFunction ∧ p.chk.fixedBad = fixedBad h cls := by
  obtain ⟨m, hwf, hread, hm⟩ := parsedFrame_spec hn h cls ibuf
  refine ⟨_, hm, ⟨rfl, rfl, rfl, rfl, rfl, rfl, rfl, ?_, hwf, hread, ?_, ?_⟩, rfl, rfl, rfl, rfl, rfl, rfl⟩
  · have hlt := n.isLt
    rw [BitVec.toNat_ofNat]
    omega
  · simp [checksOf, Config.startMarker]
  · simp [checksOf]

theorem parsedInformation_fieldsOfI (ssn rsn : Seq) :
    ∃ p, parsedInformation n h ssn rsn ibuf = .ok p ∧ p.splitsApdu n.toNat h ibuf ∧
      p.fieldsOfI ssn.toNat rsn.toNat := by
  obtain ⟨p, hp, hsplit, hcls, -, -, hfunc, hufn, hfixed⟩ := parsedFrame_splitsApdu hn h ibuf .information
  refine ⟨{ p with ssn := ssn, rsn := rsn }, by simp only [parsedInformation, hp]; rfl, hsplit, ?_⟩
  exact ⟨hcls, rfl, rfl, hfunc, hufn, hfixed⟩

theorem parsedSupervisory_fieldsOfS (rsn : Seq) :
    ∃ p, parsedSupervisory n h rsn ibuf = .ok p ∧ p.splitsApdu n.toNat h ibuf ∧ p.fieldsOfS h rsn.toNat := by
  obtain ⟨p, hp, hsplit, hcls, hssn, -, hfunc, hufn, hfixed⟩ := parsedFrame_splitsApdu hn h ibuf .supervisory
  refine ⟨{ p with rsn := rsn }, by simp only [parsedSupervisory, hp]; rfl, hsplit, ?_⟩
  exact ⟨hcls, hssn, rfl, hfunc, hufn, hfixed ▸ fixedBad_supervisory h⟩

theorem parsedUnnumbered_fieldsOfU (func : Byte) (ufn : ControlFunction) :
    ∃ p, parsedUnnumbered n h func ufn ibuf = .ok p ∧ p.splitsApdu n.toNat h ibuf ∧ p.fieldsOfU h func ufn := by
  obtain ⟨p, hp, hsplit, hcls, hssn, hrsn, -, -, hfixed⟩ := parsedFrame_splitsApdu hn h ibuf .unnumbered
  refine ⟨{ p with func := func, ufn := ufn }, by simp only [parsedUnnumbered, hp]; rfl, hsplit, ?_⟩
  exact ⟨hcls, hssn, hrsn, rfl, rfl, hfixed ▸ fixedBad_unnumbered h⟩

/-- The tag of c1 (R61) selects the fields of the answer. -/
theorem parsedByClass_spec :
    ∃ p, parsedByClass n h ibuf (classOf h.c1) = .ok p ∧ p.splitsApdu n.toNat h ibuf ∧
      (h.c1.toNat % 2 = 0 → p.fieldsOfI (seqValue h.c1 h.c2) (seqValue h.c3 h.c4)) ∧
      (h.c1.toNat % 4 = 1 → p.fieldsOfS h (seqValue h.c3 h.c4)) ∧
      (h.c1.toNat % 4 = 3 → p.fieldsOfU h (h.c1 &&& 0xFC#8) (functionOf (h.c1 &&& 0xFC#8))) := by
  have tags : h.c1.toNat % 2 = 0 ∨ h.c1.toNat % 4 = 1 ∨ h.c1.toNat % 4 = 3 := by omega
  rcases tags with tag | tag | tag
  · obtain ⟨p, hp, hsplit, hfields⟩ := parsedInformation_fieldsOfI hn h ibuf (seqOf h.c1 h.c2) (seqOf h.c3 h.c4)
    rw [toNat_seqOf, toNat_seqOf] at hfields
    rw [classOf_information (lowBits_of_mod tag)]
    exact ⟨p, hp, hsplit, fun _ => hfields, by omega, by omega⟩
  · obtain ⟨p, hp, hsplit, hfields⟩ := parsedSupervisory_fieldsOfS hn h ibuf (seqOf h.c3 h.c4)
    rw [toNat_seqOf] at hfields
    rw [classOf_supervisory (lowBits_of_mod tag)]
    exact ⟨p, hp, hsplit, by omega, fun _ => hfields, by omega⟩
  · obtain ⟨p, hp, hsplit, hfields⟩ := parsedUnnumbered_fieldsOfU hn h ibuf (funcOf h.c1) (functionOf (funcOf h.c1))
    rw [classOf_unnumbered (lowBits_of_mod tag)]
    exact ⟨p, hp, hsplit, by omega, by omega, fun _ => hfields⟩

end

/-- PARSE of a whole header, for any length: the class-specific part on IBUF's header. -/
theorem operationOf_parse_header (c : Config) {n : Byte} (hn : 6 ≤ n.toNat) (r : Request) :
    operationOf c (.parse n) r = parsedByClass n r.ibuf.header r.ibuf (classOf r.ibuf.header.c1) :=
  withHeader_header hn r.ibuf _

/-- Settles O18: short input by O17, a whole header by its class. -/
theorem parseSplitsAndClassifies : Obligations.ParseSplitsAndClassifies := by
  intro s r n h
  rcases Nat.lt_or_ge n.toNat 6 with hshort | hlong
  · obtain ⟨p, hexec, herr⟩ := parseOfShortInputIsErrShort s r n h hshort
    exact ⟨p, hexec, fun _ => herr, by omega⟩
  · obtain ⟨p, hp, hspec⟩ := parsedByClass_spec hlong r.ibuf.header r.ibuf
    exact ⟨p, exec_of_ready h ((operationOf_parse_header _ hlong r).trans hp), by omega, fun _ => hspec⟩

/-! ### The class rows (R62 to R64, R104 to R106) -/

/-- A frame row on a whole header answers what its class answers to the header with the row's control field. -/
theorem frameOperation_header {r : Request} (hn : 6 ≤ r.ilen.toNat) (w : ControlWord)
    (row : Byte → ControlHeader → Memory → Except Fault Response) :
    frameOperation w row r = row r.ilen (r.ibuf.header.withControl w) r.ibuf :=
  withHeader_header hn r.ibuf _

theorem Memory.withControl_iControl (ibuf : Memory) (ssn rsn : Seq) (g : BitVec 1) :
    ibuf.header.withControl (iControl ssn rsn g) =
      { hstart := ibuf.read 0, halen := ibuf.read 1, c1 := BitVec.ofNat 8 (2 * ssn.toNat),
        c2 := BitVec.ofNat 8 (ssn.toNat / 128), c3 := BitVec.ofNat 8 (2 * rsn.toNat + g.toNat),
        c4 := BitVec.ofNat 8 (rsn.toNat / 128) } := by
  rw [iControl, seqLow_or_ignored, seqLow_eq_ofNat, seqHigh_eq_ofNat, seqHigh_eq_ofNat]
  simp only [ControlHeader.withControl, Memory.header, c1Of_controlWord, c2Of_controlWord, c3Of_controlWord,
    c4Of_controlWord]

theorem Memory.withControl_sControl (ibuf : Memory) (fixedC1 : BitVec 6) (fixedC2 : Byte) (g : BitVec 1)
    (rsn : Seq) : ibuf.header.withControl (sControl fixedC1 fixedC2 g rsn) =
      { hstart := ibuf.read 0, halen := ibuf.read 1, c1 := BitVec.ofNat 8 (4 * fixedC1.toNat + 1), c2 := fixedC2,
        c3 := BitVec.ofNat 8 (2 * rsn.toNat + g.toNat), c4 := BitVec.ofNat 8 (rsn.toNat / 128) } := by
  rw [sControl, sFrame_c1_eq_ofNat, seqLow_or_ignored, seqHigh_eq_ofNat]
  simp only [ControlHeader.withControl, Memory.header, c1Of_controlWord, c2Of_controlWord, c3Of_controlWord,
    c4Of_controlWord]

theorem Memory.withControl_uControl (ibuf : Memory) (func : BitVec 6) (fixed : BitVec 24) :
    ibuf.header.withControl (uControl func fixed) =
      { hstart := ibuf.read 0, halen := ibuf.read 1, c1 := BitVec.ofNat 8 (4 * func.toNat + 3),
        c2 := fixed.extractLsb' 0 8, c3 := fixed.extractLsb' 8 8, c4 := fixed.extractLsb' 16 8 } := by
  simp only [ControlHeader.withControl, Memory.header, c1Of_uControl, uFrame_c1_eq_ofNat, c2Of_uControl,
    c3Of_uControl, c4Of_uControl]

/-- Settles O19: the answer of an I frame to the row's header. -/
theorem informationRowGivesItsSequenceNumbers : Obligations.InformationRowGivesItsSequenceNumbers := by
  intro s r ssn rsn g h hn
  rw [← Memory.withControl_iControl]
  obtain ⟨p, hp, hspec⟩ := parsedInformation_fieldsOfI hn (r.ibuf.header.withControl (iControl ssn rsn g)) r.ibuf
    ssn rsn
  exact ⟨p, exec_of_ready h (by rw [operationOf, frameOperation_header hn, hp]), hspec⟩

/-- Settles O20: the answer of an S frame to the row's header. -/
theorem supervisoryRowGivesItsReceiveNumber : Obligations.SupervisoryRowGivesItsReceiveNumber := by
  intro s r fixedC1 fixedC2 g rsn h hn
  obtain ⟨p, hp, hspec⟩ := parsedSupervisory_fieldsOfS hn
    (r.ibuf.header.withControl (sControl fixedC1 fixedC2 g rsn)) r.ibuf rsn
  exact ⟨p, _, exec_of_ready h (by rw [operationOf, frameOperation_header hn, hp]), Memory.withControl_sControl ..,
    hspec⟩

/-- Every row under the tag 11, at either level of the decoder (R72): the header of its function bits and fixed bytes,
and the function code and function the row names. -/
theorem functionRow_fieldsOfU {i : Instr} {s : State} {r : Request} (h : s.ready r) (hn : 6 ≤ r.ilen.toNat)
    {func : BitVec 6} {fixed : BitVec 24} {code : Byte} {ufn : ControlFunction}
    (hi : operationOf s.config i = operationOf.functionOperation func fixed code ufn) :
    ∃ p hdr, exec i s = .next (s.publish p) ∧
      hdr = { hstart := r.ibuf.read 0, halen := r.ibuf.read 1, c1 := BitVec.ofNat 8 (4 * func.toNat + 3),
              c2 := fixed.extractLsb' 0 8, c3 := fixed.extractLsb' 8 8, c4 := fixed.extractLsb' 16 8 } ∧
      p.splitsApdu r.ilen.toNat hdr r.ibuf ∧ p.fieldsOfU hdr code ufn := by
  obtain ⟨p, hp, hspec⟩ := parsedUnnumbered_fieldsOfU hn (r.ibuf.header.withControl (uControl func fixed)) r.ibuf
    code ufn
  exact ⟨p, _, exec_of_ready h (by rw [hi, operationOf.functionOperation, frameOperation_header hn, hp]),
    Memory.withControl_uControl .., hspec⟩

/-- Settles O21: U_FRAME's function code is its function bits over two zeros. -/
theorem unnumberedRowGivesItsFunction : Obligations.UnnumberedRowGivesItsFunction := by
  intro s r func fixed h hn
  rw [← field_func_eq_ofNat]
  exact functionRow_fieldsOfU h hn rfl

/-! ### Control functions (R107) -/

/-- Settles O7, over the 256 bytes. -/
theorem functionIdentificationByTheWholeByte : Obligations.FunctionIdentificationByTheWholeByte := by
  unfold Obligations.FunctionIdentificationByTheWholeByte
  decide

/-! ### The length byte (R109) -/

/-- The response with another length byte and what LEN_MISMATCH says of it. -/
def Response.withLength (p : Response) (halen : Byte) (mismatch : Bool) : Response :=
  { p with halen := halen, chk := { p.chk with lenMismatch := mismatch } }

section
variable {n : Byte} {m m' : Memory} (payload : ∀ i, i < n.toNat - 6 → m.read (6 + i) = m'.read (6 + i))
  (h : ControlHeader) (halen : Byte) (cls : FrameClass)
include payload

theorem parsedFrame_withLength : parsedFrame n { h with halen := halen } cls m =
    (parsedFrame n h cls m').map (·.withLength halen (halen.toNat != n.toNat - 2)) := by
  simp only [parsedFrame, Config.hdrBytes, copyBytes_congr payload]
  cases copyBytes m' 6 0 (n.toNat - 6) [] <;> rfl

/-- The length byte of the header reaches the class-specific part of PARSE in no other way. -/
theorem parsedByClass_withLength : parsedByClass n { h with halen := halen } m cls =
    (parsedByClass n h m' cls).map (·.withLength halen (halen.toNat != n.toNat - 2)) := by
  have frame := parsedFrame_withLength payload h halen
  cases cls with
  | noClass => exact frame _
  | information =>
    simp only [parsedByClass, parsedInformation, frame]
    cases parsedFrame n h .information m' <;> rfl
  | supervisory =>
    simp only [parsedByClass, parsedSupervisory, frame]
    cases parsedFrame n h .supervisory m' <;> rfl
  | unnumbered =>
    simp only [parsedByClass, parsedUnnumbered, frame]
    cases parsedFrame n h .unnumbered m' <;> rfl

end

/-- Settles O25: the two IBUFs hold the same payload and the same header but for its length byte. -/
theorem lengthByteReachesOnlyTheCheck : Obligations.LengthByteReachesOnlyTheCheck := by
  intro s s' r r' n p p' h h' hread hexec hexec'
  have hp := operationOf_of_exec h hexec
  have hp' := operationOf_of_exec h' hexec'
  rcases Nat.lt_or_ge n.toNat 6 with hshort | hlong
  · cases (withHeader_short hshort r.ibuf _).symm.trans hp
    cases (withHeader_short hshort r'.ibuf _).symm.trans hp'
    rfl
  · have header : r.ibuf.header = { r'.ibuf.header with halen := r.ibuf.read 1 } := by
      simp [Memory.header, hread]
    have payload : ∀ i, i < n.toNat - 6 → r.ibuf.read (6 + i) = r'.ibuf.read (6 + i) :=
      fun i _ => hread _ (by omega)
    rw [operationOf_parse_header _ hlong, header, parsedByClass_withLength payload] at hp
    rw [operationOf_parse_header _ hlong] at hp'
    cases (congrArg (Except.map _) hp').symm.trans hp
    rfl

/-! ### MAX_PAYLOAD (R111) -/

theorem operationOf_congr_config (c c' : Config) {i : Instr} (hi : ∀ ssn rsn l, i ≠ .buildI ssn rsn l) :
    operationOf c i = operationOf c' i := by
  cases i with
  | buildI ssn rsn l => exact absurd rfl (hi ssn rsn l)
  | _ => rfl

theorem decodeRequest_word_ne_buildI {r : Request} (h : r.op ≠ 0b01#2) (ssn rsn : Seq) (l : Byte) :
    decodeRequest r.word ≠ .buildI ssn rsn l := by
  rcases op_cases r.op with h0 | h1 | h2 | h3
  · simp [decodeRequest_word_parse h0]
  · exact absurd h1 h
  · simp [decodeRequest_word_buildS h2]
  · simp [decodeRequest_word_buildU h3]

/-- Settles O44: the operation of the request is the same under both configurations. -/
theorem onlyBuildIReadsMaxPayload : Obligations.OnlyBuildIReadsMaxPayload := by
  intro c c' r hc hc' hop
  obtain ⟨p, hp, -⟩ := operationOf_consistent hc (decodeRequest_level r.word) r
  rw [respondAlone_eq_some hc hp]
  rw [operationOf_congr_config c c' (decodeRequest_word_ne_buildI hop)] at hp
  rw [respondAlone_eq_some hc' hp]

end Sys2Proof.Machine

/-! PROOFS. The statements of 41_build.md: what the three builders answer, and that PARSE gives back what a built
frame was built from. -/

namespace Sys2Proof.Machine

/-! ### The frames of the builders (R130 to R133) -/

theorem headerFrame_isFrame (c1 c2 c3 c4 : Byte) (ibuf : Memory) :
    ∃ p, headerFrame c1 c2 c3 c4 = .ok p ∧ p.isFrame c1 c2 c3 c4 0 ibuf := by
  obtain ⟨m, hwf, hread, hm⟩ := headerFrame_spec c1 c2 c3 c4
  refine ⟨_, hm, rfl, builtFrame_parseFieldsZero _ m, rfl, hwf, fun a => (hread a).trans ?_⟩
  by_cases ha : a < 6
  · rw [if_pos ha]
  · rw [if_neg ha, if_neg (by omega)]
    exact List.getD_eq_default _ _ (Nat.not_lt.mp ha)

theorem informationFrame_isFrame {maxPayload : Nat} {l : Byte} (hfits : l.toNat ≤ maxPayload) (hl : maxPayload ≤ 249)
    (ssn rsn : Seq) (ibuf : Memory) : ∃ p, informationFrame maxPayload ssn rsn l ibuf = .ok p ∧
      p.isFrame (seqLow ssn) (seqHigh ssn) (seqLow rsn) (seqHigh rsn) l.toNat ibuf := by
  obtain ⟨m, hwf, hread, hm⟩ := informationFrame_spec hfits hl ssn rsn ibuf
  refine ⟨_, hm, rfl, builtFrame_parseFieldsZero _ m, ?_, hwf, hread⟩
  simp only [builtFrame, BitVec.toNat_ofNat]
  omega

/-- BUILD_I above the limit (R131): the error response. -/
theorem buildI_oversize {s : State} {r : Request} (h : s.ready r) {l : Byte} (hover : s.config.maxPayload < l.toNat)
    (ssn rsn : Seq) :
    ∃ p, exec (.buildI ssn rsn l) s = .next (s.publish p) ∧ p.status = .errOversize ∧ p.allZeroButStatus :=
  ⟨_, exec_of_ready h (informationFrame_oversize hover ssn rsn r.ibuf), rfl, Response.error_allZeroButStatus _⟩

/-- BUILD_I within the limit (R130): the I frame. -/
theorem buildI_isFrame {s : State} {r : Request} (h : s.ready r) {l : Byte} (hfits : l.toNat ≤ s.config.maxPayload)
    (ssn rsn : Seq) : ∃ p, exec (.buildI ssn rsn l) s = .next (s.publish p) ∧
      p.isFrame (seqLow ssn) (seqHigh ssn) (seqLow rsn) (seqHigh rsn) l.toNat r.ibuf := by
  obtain ⟨p, hp, hframe⟩ := informationFrame_isFrame hfits ((Config.legal_iff _).mp h.1) ssn rsn r.ibuf
  exact ⟨p, exec_of_ready h hp, hframe⟩

theorem buildS_isFrame {s : State} {r : Request} (h : s.ready r) (rsn : Seq) :
    ∃ p, exec (.buildS rsn) s = .next (s.publish p) ∧
      p.isFrame 0x01#8 0x00#8 (seqLow rsn) (seqHigh rsn) 0 r.ibuf := by
  obtain ⟨p, hp, hframe⟩ := headerFrame_isFrame 0x01#8 0x00#8 (seqLow rsn) (seqHigh rsn) r.ibuf
  exact ⟨p, exec_of_ready h hp, hframe⟩

theorem buildU_isFrame {s : State} {r : Request} (h : s.ready r) (fbits : Byte) :
    ∃ p, exec (.buildU fbits) s = .next (s.publish p) ∧
      p.isFrame (funcByte fbits) 0x00#8 0x00#8 0x00#8 0 r.ibuf := by
  obtain ⟨p, hp, hframe⟩ := headerFrame_isFrame (funcByte fbits) 0x00#8 0x00#8 0x00#8 r.ibuf
  exact ⟨p, exec_of_ready h hp, hframe⟩

/-- Settles O26: the two sides of the limit, the control bytes as arithmetic by O2. -/
theorem buildIWritesTheInformationFrame : Obligations.BuildIWritesTheInformationFrame := by
  intro s r ssn rsn l h
  rw [← seqLow_eq_ofNat, ← seqHigh_eq_ofNat, ← seqLow_eq_ofNat, ← seqHigh_eq_ofNat]
  rcases Nat.lt_or_ge s.config.maxPayload l.toNat with hover | hfits
  · obtain ⟨p, hexec, herr⟩ := buildI_oversize h hover ssn rsn
    exact ⟨p, hexec, by omega, fun _ => herr⟩
  · obtain ⟨p, hexec, hframe⟩ := buildI_isFrame h hfits ssn rsn
    exact ⟨p, hexec, fun _ => hframe, by omega⟩

/-- Settles O27: BUILD_I's answer above the limit. -/
theorem buildIOfOversizePayloadIsErrOversize : Obligations.BuildIOfOversizePayloadIsErrOversize :=
  fun _ _ ssn rsn _ h hover => buildI_oversize h hover ssn rsn

/-- Settles O28: a legal MAX_PAYLOAD and the number after it are below 256, so `l` holds them. -/
theorem buildIAtTheBoundary : Obligations.BuildIAtTheBoundary := by
  intro s r ssn rsn h
  have hl : s.config.maxPayload ≤ 249 := (Config.legal_iff _).mp h.1
  constructor
  · obtain ⟨p, hexec, hok, -⟩ := buildI_isFrame (l := BitVec.ofNat 8 s.config.maxPayload) h
      (by rw [BitVec.toNat_ofNat]; omega) ssn rsn
    exact ⟨p, hexec, hok⟩
  · obtain ⟨p, hexec, herr, -⟩ := buildI_oversize (l := BitVec.ofNat 8 (s.config.maxPayload + 1)) h
      (by rw [BitVec.toNat_ofNat]; omega) ssn rsn
    exact ⟨p, hexec, herr⟩

/-- Settles O29: BUILD_S's frame, the receive number's bytes as arithmetic by O2. -/
theorem buildSWritesTheSupervisoryFrame : Obligations.BuildSWritesTheSupervisoryFrame := by
  intro s r rsn h
  rw [← seqLow_eq_ofNat, ← seqHigh_eq_ofNat]
  exact buildS_isFrame h rsn

theorem funcByte_eq_ofNat (f : Byte) : funcByte f = BitVec.ofNat 8 (4 * (f.toNat / 4) + 3) := by
  obtain ⟨-, byte, -⟩ := functionCodeAndItsByte f
  rw [← byte, BitVec.ofNat_toNat, BitVec.setWidth_eq]

/-- Settles O30: BUILD_U's frame, its first control byte as arithmetic by O3. -/
theorem buildUWritesTheUnnumberedFrame : Obligations.BuildUWritesTheUnnumberedFrame := by
  intro s r fbits h
  rw [← funcByte_eq_ofNat]
  exact buildU_isFrame h fbits

/-! ### The start marker and the length byte (R134) -/

theorem decodeRequest_word_ne_parse {r : Request} (h : r.op ≠ 0b00#2) (n : Byte) :
    decodeRequest r.word ≠ .parse n := by
  rcases op_cases r.op with h0 | h1 | h2 | h3
  · exact absurd h0 h
  · simp [decodeRequest_word_buildI h1]
  · simp [decodeRequest_word_buildS h2]
  · simp [decodeRequest_word_buildU h3]

/-- A consistent OK response without a class is no answer of PARSE, so it holds a frame. -/
theorem Response.consistent.holdsFrame {p : Response} (h : p.consistent) (hok : p.status = .ok)
    (hcls : p.cls = .noClass) : p.holdsFrame := by
  obtain ⟨-, -, -, -, hkind⟩ := h
  rcases hkind hok with hframe | ⟨-, hclass, -⟩
  · exact hframe
  · exact absurd (hclass.symm.trans hcls) (classOf_ne_noClass _)

/-- Settles O31: a builder's response is consistent and without a class. -/
theorem builtFrameHeaderConstants : Obligations.BuiltFrameHeaderConstants := by
  intro s t r p h hbuild hstep hp hok
  have hi := decodeRequest_level r.word
  obtain ⟨q, hq, hcons⟩ := operationOf_consistent h.1 hi r
  obtain ⟨hcls, -⟩ := builder_parseFieldsZero h.1 hi (decodeRequest_word_ne_parse hbuild) hq
  rw [step_publishes h hq] at hstep
  cases hstep
  cases hp
  obtain ⟨-, hlen, hstart, halen⟩ := hcons.holdsFrame hok hcls
  exact ⟨hstart, by omega, hlen⟩

/-! ### PARSE of a built frame (R135, R136) -/

/-- The header of a frame with the given control bytes and `l` bytes of payload (R43, R68). -/
def frameHeader (c1 c2 c3 c4 : Byte) (l : Nat) : ControlHeader :=
  { hstart := 0x68#8, halen := BitVec.ofNat 8 (l + 4), c1 := c1, c2 := c2, c3 := c3, c4 := c4 }

/-- What PARSE answers for a built frame of any class: the `l` bytes of payload, and no check but the class's own. -/
def Response.givesBack (p : Response) (l : Nat) (ibuf : Memory) : Prop :=
  p.status = .ok ∧ p.olen = BitVec.ofNat 8 l ∧ (∀ a, p.obuf.read a = if a < l then ibuf.read a else 0#8) ∧
  (p.chk.fixedBad = false → p.chk.code = 0#3)

theorem Checks.code_eq_zero {c : Checks} (hstart : c.startBad = false) (hlen : c.lenMismatch = false)
    (hfixed : c.fixedBad = false) : c.code = 0#3 := by
  obtain ⟨start, len, fixed⟩ := c
  cases hstart; cases hlen; cases hfixed
  rfl

section
variable {b : Response} {c1 c2 c3 c4 : Byte} {l : Nat} {ibuf : Memory} (hb : b.isFrame c1 c2 c3 c4 l ibuf)
include hb

theorem Response.isFrame.header : b.obuf.header = frameHeader c1 c2 c3 c4 l := by
  obtain ⟨-, -, -, -, hread⟩ := hb
  simp [Memory.header, frameHeader, hread]

theorem Response.isFrame.length : b.olen.toNat = l + 6 := by
  obtain ⟨-, -, hlen, -⟩ := hb
  exact hlen

/-- The payload stands behind the header (R58). -/
theorem Response.isFrame.payload {a : Nat} (ha : a < l) : b.obuf.read (6 + a) = ibuf.read a := by
  obtain ⟨-, -, -, -, hread⟩ := hb
  rw [hread, if_neg (by omega), if_pos (by omega), Nat.add_sub_cancel_left]

/-- The split of a frame's own bytes undoes the frame: the start marker and the length byte are the expected ones,
and the payload is behind the header. -/
theorem Response.splitsApdu.givesBack {p : Response}
    (hp : p.splitsApdu b.olen.toNat (frameHeader c1 c2 c3 c4 l) b.obuf) : p.givesBack l ibuf := by
  have length := hb.length
  obtain ⟨hok, -, -, -, -, -, -, holen, -, hpay, hstart, hlen⟩ := hp
  have fits := b.olen.isLt
  have start : p.chk.startBad = false := by simpa [frameHeader] using hstart
  have len : p.chk.lenMismatch = false := by
    rw [← Bool.not_eq_true, hlen, frameHeader, BitVec.toNat_ofNat]
    omega
  refine ⟨hok, BitVec.eq_of_toNat_eq ?_, fun a => ?_, Checks.code_eq_zero start len⟩
  · rw [holen, BitVec.toNat_ofNat]
    omega
  · rw [hpay, length, Nat.add_sub_cancel]
    exact ite_congr rfl hb.payload fun _ => rfl

/-- The step that parses a built frame gives back its payload and the fields of the class its first control byte
names. -/
theorem step_parseOf {s : State} {x y : Seq} {z : Byte} (h : s.ready (Request.parseOf b x y z)) :
    ∃ p, step s = .next (s.publish p) ∧ p.givesBack l ibuf ∧
      (c1.toNat % 2 = 0 → p.fieldsOfI (seqValue c1 c2) (seqValue c3 c4)) ∧
      (c1.toNat % 4 = 1 → p.fieldsOfS (frameHeader c1 c2 c3 c4 l) (seqValue c3 c4)) ∧
      (c1.toNat % 4 = 3 →
        p.fieldsOfU (frameHeader c1 c2 c3 c4 l) (c1 &&& 0xFC#8) (functionOf (c1 &&& 0xFC#8))) := by
  have hlong : 6 ≤ b.olen.toNat := by rw [hb.length]; omega
  obtain ⟨p, hexec, -, hspec⟩ := parseSplitsAndClassifies s _ b.olen h
  obtain ⟨hsplit, hfields⟩ := hspec hlong
  simp only [Request.parseOf, hb.header] at hsplit hfields
  refine ⟨p, ?_, hsplit.givesBack hb, hfields⟩
  rw [step_of_ready h, decodeRequest_word_parse rfl]
  exact hexec

end

/-- An instruction publishes one response. -/
theorem eq_of_exec {i : Instr} {s : State} {p q : Response} (hp : exec i s = .next (s.publish p))
    (hq : exec i s = .next (s.publish q)) : p = q := by
  have hpub : s.publish p = s.publish q := by simpa using hp.symm.trans hq
  simpa using congrArg State.response hpub

/-- R65 undoes R66: the bytes of a sequence number hold its number. -/
theorem seqValue_split (n : Seq) : seqValue (seqLow n) (seqHigh n) = n.toNat :=
  (toNat_seqOf _ _).symm.trans (congrArg BitVec.toNat (seqOf_split_zero n))

theorem seqLow_even (n : Seq) : (seqLow n).toNat % 2 = 0 := by
  obtain ⟨low, -, -⟩ := sequenceNumberIntoItsTwoBytes n
  omega

/-- Settles O33: the built frame's first control byte is even, and its control bytes hold the sequence numbers. -/
theorem informationFrameRoundTrip : Obligations.InformationFrameRoundTrip := by
  intro s s' r b ssn rsn l x y z h hfits hexec h'
  obtain ⟨q, hq, hframe⟩ := buildI_isFrame h hfits ssn rsn
  cases eq_of_exec hexec hq
  obtain ⟨p, hstep, ⟨hok, holen, hpay, hchk⟩, hI, -⟩ := step_parseOf hframe h'
  obtain ⟨hcls, hssn, hrsn, -, -, hfixed⟩ := hI (seqLow_even ssn)
  rw [seqValue_split] at hssn hrsn
  rw [BitVec.ofNat_toNat, BitVec.setWidth_eq] at holen
  exact ⟨p, hstep, hok, hcls, BitVec.eq_of_toNat_eq hssn, BitVec.eq_of_toNat_eq hrsn, hpay, holen, hchk hfixed⟩

/-- The S frame's fixed bytes are the expected ones, and its other two hold the receive number (R136). -/
theorem supervisoryFrame_roundTrip {s : State} {b : Response} {x y rsn : Seq} {z : Byte} {ibuf : Memory}
    (hb : b.isFrame 0x01#8 0x00#8 (seqLow rsn) (seqHigh rsn) 0 ibuf) (h : s.ready (Request.parseOf b x y z)) :
    ∃ p, step s = .next (s.publish p) ∧ p.status = .ok ∧ p.olen = 0#8 ∧ p.chk.code = 0#3 ∧
      p.cls = .supervisory ∧ p.rsn = rsn := by
  obtain ⟨p, hstep, ⟨hok, holen, -, hchk⟩, -, hS, -⟩ := step_parseOf hb h
  obtain ⟨hcls, -, hrsn, -, -, hfixed⟩ := hS rfl
  rw [seqValue_split] at hrsn
  have fixed : p.chk.fixedBad = false := by simpa [frameHeader] using hfixed
  exact ⟨p, hstep, hok, holen, hchk fixed, hcls, BitVec.eq_of_toNat_eq hrsn⟩

/-- The U frame's fixed bytes are zero, and its first control byte holds the function bits over the tag 11 (R136). -/
theorem unnumberedFrame_roundTrip {s : State} {b : Response} {x y : Seq} {f z : Byte} {ibuf : Memory}
    (hb : b.isFrame (funcByte f) 0x00#8 0x00#8 0x00#8 0 ibuf) (h : s.ready (Request.parseOf b x y z)) :
    ∃ p, step s = .next (s.publish p) ∧ p.status = .ok ∧ p.olen = 0#8 ∧ p.chk.code = 0#3 ∧
      p.cls = .unnumbered ∧ p.func = f &&& 0xFC#8 ∧ p.ufn = functionOf (f &&& 0xFC#8) := by
  obtain ⟨-, byte, code⟩ := functionCodeAndItsByte f
  rw [funcOf] at code
  obtain ⟨p, hstep, ⟨hok, holen, -, hchk⟩, -, -, hU⟩ := step_parseOf hb h
  obtain ⟨hcls, -, -, hfunc, hufn, hfixed⟩ := hU (by omega)
  rw [code] at hfunc hufn
  have fixed : p.chk.fixedBad = false := by simpa [frameHeader] using hfixed
  exact ⟨p, hstep, hok, holen, hchk fixed, hcls, hfunc, hufn⟩

/-- Each of the six function values is its own function code, and names a function (R78). -/
theorem namedFunctionValues : ∀ f ∈ [0x04#8, 0x08#8, 0x10#8, 0x20#8, 0x40#8, 0x80#8],
    f &&& 0xFC#8 = f ∧ functionOf f ≠ .unknown := by decide

/-- Settles O34: the two frames without a payload, and the six values that are function codes. -/
theorem supervisoryAndUnnumberedRoundTrip : Obligations.SupervisoryAndUnnumberedRoundTrip := by
  intro s s' r b x y z h h'
  refine ⟨fun rsn hexec => ?_, fun f hexec => ?_⟩
  · obtain ⟨q, hq, hframe⟩ := buildS_isFrame h rsn
    cases eq_of_exec hexec hq
    exact supervisoryFrame_roundTrip hframe h'
  · obtain ⟨q, hq, hframe⟩ := buildU_isFrame h f
    cases eq_of_exec hexec hq
    obtain ⟨p, hstep, hok, holen, hchk, hcls, hfunc, hufn⟩ := unnumberedFrame_roundTrip hframe h'
    refine ⟨p, hstep, hok, holen, hchk, hcls, hfunc, fun hf => ?_⟩
    obtain ⟨hcode, hnamed⟩ := namedFunctionValues f hf
    rw [hcode] at hfunc hufn
    exact ⟨hfunc, hufn, hufn ▸ hnamed⟩

end Sys2Proof.Machine

/-! PROOFS. The statements of 42_control_functions.md: the rows of the six named functions and of every other function
value, and what BUILD_U writes for the bytes of each. -/

namespace Sys2Proof

/-- The word of a U frame (R64) as a number: the fixed bytes, the function bits, the tag 11. -/
theorem uControl_eq_ofNat (func : BitVec 6) (fixed : BitVec 24) :
    uControl func fixed = BitVec.ofNat 32 (256 * fixed.toNat + 4 * func.toNat + 3) := by
  have fixedAndFunc : 2 ^ 8 * fixed.toNat ||| 2 ^ 2 * func.toNat = 2 ^ 2 * (2 ^ 6 * fixed.toNat + func.toNat) :=
    or_eq_add_of_lt func.isLt fixed.toNat
  apply BitVec.eq_of_toNat_eq
  rw [uControl, BitVec.toNat_or, BitVec.toNat_or, toNat_field (by decide), toNat_field (by decide), fixedAndFunc,
    BitVec.toNat_ofNat, BitVec.toNat_ofNat]
  refine (or_eq_add_of_lt (lo := 0) (n := 2) (v := 3) (by decide) _).trans ?_
  omega

/-- The function values with no row of their own are the 58 that R78 does not list. -/
theorem not_named_of_toNat : ∀ func : BitVec 6, func.toNat ∉ [1, 2, 4, 8, 16, 32] →
    namedFunctionBits.contains func = false := by decide

end Sys2Proof

namespace Sys2Proof.Machine

/-- A second-level row under U_FRAME (R72) with the function bits `func` and the function `ufn`. -/
structure IsFunctionRow (func : BitVec 6) (ufn : ControlFunction) (fixed : BitVec 24) (i : Instr) : Prop where
  wellFormed : i.wellFormed = true
  level : i.level = .function
  encode : i.encode = .cw (uControl func fixed)
  meaning : ∀ c, operationOf c i = operationOf.functionOperation func fixed (BitVec.ofNat 8 (4 * func.toNat)) ufn

theorem isFunctionRow_uUnknown {func : BitVec 6} (h : namedFunctionBits.contains func = false) (fixed : BitVec 24) :
    IsFunctionRow func .unknown fixed (.uUnknown func fixed) where
  wellFormed := by simp only [Instr.wellFormed, h, Bool.not_false]
  level := rfl
  encode := rfl
  meaning _ := by rw [← field_func_eq_ofNat]; rfl

section
variable {func : BitVec 6} {ufn : ControlFunction} {fixed : BitVec 24} {i : Instr}
  (row : IsFunctionRow func ufn fixed i)
include row

/-- The row's word, written as a number, decodes to the row. -/
theorem IsFunctionRow.decodeControl_eq :
    decodeControl (BitVec.ofNat 32 (256 * fixed.toNat + 4 * func.toNat + 3)) = i := by
  have atLevel := decodeAt_encode row.wellFormed
  rw [row.level, row.encode, uControl_eq_ofNat] at atLevel
  exact decodeControl_of_function atLevel

/-- The row's answer to a whole header (R106, R107). -/
theorem IsFunctionRow.fieldsOfU {s : State} {r : Request} (h : s.ready r) (hn : 6 ≤ r.ilen.toNat) :
    ∃ p hdr, exec i s = .next (s.publish p) ∧
      hdr = { hstart := r.ibuf.read 0, halen := r.ibuf.read 1, c1 := BitVec.ofNat 8 (4 * func.toNat + 3),
              c2 := fixed.extractLsb' 0 8, c3 := fixed.extractLsb' 8 8, c4 := fixed.extractLsb' 16 8 } ∧
      p.splitsApdu r.ilen.toNat hdr r.ibuf ∧ p.fieldsOfU hdr (BitVec.ofNat 8 (4 * func.toNat)) ufn :=
  functionRow_fieldsOfU h hn (row.meaning s.config)

end

/-- BUILD_U forces the tag 11 (R67), so the four bytes with the function bits `func` give one frame (R133). -/
theorem buildU_ofFunction_isFrame (func : BitVec 6) {s : State} {r : Request} (h : s.ready r) {k : Nat} (hk : k < 4) :
    ∃ p, exec (.buildU (BitVec.ofNat 8 (4 * func.toNat + k))) s = .next (s.publish p) ∧
      p.isFrame (BitVec.ofNat 8 (4 * func.toNat + 3)) 0#8 0#8 0#8 0 r.ibuf := by
  have frame := buildUWritesTheUnnumberedFrame s r (BitVec.ofNat 8 (4 * func.toNat + k)) h
  have bits : (BitVec.ofNat 8 (4 * func.toNat + k)).toNat / 4 = func.toNat := by
    have hfunc := func.isLt
    rw [BitVec.toNat_ofNat]
    omega
  rwa [bits] at frame

/-- Settles O22: each of the six is a function row, its value four times its function bits. -/
theorem namedFunctionRows : Obligations.NamedFunctionRows := by
  intro row hrow
  obtain ⟨func, hvalue, isRow⟩ : ∃ func : BitVec 6, row.1 = 4 * func.toNat ∧
      ∀ fixed, IsFunctionRow func row.2.1 fixed (row.2.2 fixed) := by
    simp only [List.mem_cons, List.not_mem_nil, or_false] at hrow
    rcases hrow with rfl | rfl | rfl | rfl | rfl | rfl
    · exact ⟨0b000001#6, rfl, fun _ => ⟨rfl, rfl, rfl, fun _ => rfl⟩⟩
    · exact ⟨0b000010#6, rfl, fun _ => ⟨rfl, rfl, rfl, fun _ => rfl⟩⟩
    · exact ⟨0b000100#6, rfl, fun _ => ⟨rfl, rfl, rfl, fun _ => rfl⟩⟩
    · exact ⟨0b001000#6, rfl, fun _ => ⟨rfl, rfl, rfl, fun _ => rfl⟩⟩
    · exact ⟨0b010000#6, rfl, fun _ => ⟨rfl, rfl, rfl, fun _ => rfl⟩⟩
    · exact ⟨0b100000#6, rfl, fun _ => ⟨rfl, rfl, rfl, fun _ => rfl⟩⟩
  rw [hvalue]
  exact ⟨fun fixed => (isRow fixed).decodeControl_eq, fun _ _ fixed h hn => (isRow fixed).fieldsOfU h hn,
    fun _ _ _ h hk => buildU_ofFunction_isFrame func h hk⟩

/-- Settles O23: every other function value has the row U_Unknown. -/
theorem unknownFunctionRow : Obligations.UnknownFunctionRow := by
  intro s r func fixed h hfunc
  have row := isFunctionRow_uUnknown (not_named_of_toNat func hfunc) fixed
  exact ⟨row.wellFormed, row.decodeControl_eq, row.fieldsOfU h, fun _ hk => buildU_ofFunction_isFrame func h hk⟩

end Sys2Proof.Machine

/-! PROOFS. The statements of 60_exceptions.md: the two errors and their causes, the error response, and the request
after an error. -/

namespace Sys2Proof.Machine

/-! ### The outcome of a request (R200 to R205) -/

/-- The cause of ERR_OVERSIZE (R201). -/
def Request.isOversize (r : Request) (c : Config) : Prop := r.op = 0b01#2 ∧ c.maxPayload < r.ilen.toNat

/-- The cause of ERR_SHORT (R202). -/
def Request.isShort (r : Request) : Prop := r.op = 0b00#2 ∧ r.ilen.toNat < 6

theorem Request.isShort.not_isOversize {r : Request} (h : r.isShort) (c : Config) : ¬ r.isOversize c := by
  rintro ⟨hbuildI, -⟩
  obtain ⟨hparse, -⟩ := h
  simp [hparse] at hbuildI

/-- The response `p` has the outcome R200 gives the request `r`: an error with its cause and nothing recorded beyond
the code, or OK without either cause. -/
inductive Response.HasOutcome (p : Response) (c : Config) (r : Request) : Prop where
  | oversize (cause : r.isOversize c) (code : p.status = .errOversize) (zero : p.allZeroButStatus)
  | short (cause : r.isShort) (code : p.status = .errShort) (zero : p.allZeroButStatus)
  | ok (fits : ¬ r.isOversize c) (long : ¬ r.isShort) (code : p.status = .ok)

/-- An operation that is neither PARSE nor BUILD_I has no error's cause (R205). -/
theorem Response.HasOutcome.of_cannotFail {p : Response} {c : Config} {r : Request} (hparse : r.op ≠ 0b00#2)
    (hbuildI : r.op ≠ 0b01#2) (code : p.status = .ok) : p.HasOutcome c r :=
  .ok (fun ⟨hop, _⟩ => hbuildI hop) (fun ⟨hop, _⟩ => hparse hop) code

theorem Response.HasOutcome.of_ne_ok {p : Response} {c : Config} {r : Request} (h : p.HasOutcome c r)
    (herr : p.status ≠ .ok) : (p.status = .errOversize ∨ p.status = .errShort) ∧ p.allZeroButStatus := by
  cases h with
  | oversize _ code zero => exact ⟨.inl code, zero⟩
  | short _ code zero => exact ⟨.inr code, zero⟩
  | ok _ _ code => exact absurd code herr

section
variable {s : State} {r : Request} (h : s.ready r)
include h

theorem parse_outcome (hop : r.op = 0b00#2) :
    ∃ p, exec (.parse r.ilen) s = .next (s.publish p) ∧ p.HasOutcome s.config r := by
  obtain ⟨p, hexec, hshort, hlong⟩ := parseSplitsAndClassifies s r r.ilen h
  refine ⟨p, hexec, ?_⟩
  rcases Nat.lt_or_ge r.ilen.toNat 6 with hn | hn
  · obtain ⟨code, zero⟩ := hshort hn
    exact .short ⟨hop, hn⟩ code zero
  · obtain ⟨⟨code, -⟩, -⟩ := hlong hn
    exact .ok (by simp [Request.isOversize, hop]) (by simp [Request.isShort, hn]) code

theorem buildI_outcome (hop : r.op = 0b01#2) :
    ∃ p, exec (.buildI r.ssn r.rsn r.ilen) s = .next (s.publish p) ∧ p.HasOutcome s.config r := by
  rcases Nat.lt_or_ge s.config.maxPayload r.ilen.toNat with hover | hfits
  · obtain ⟨p, hexec, code, zero⟩ := buildI_oversize h hover r.ssn r.rsn
    exact ⟨p, hexec, .oversize ⟨hop, hover⟩ code zero⟩
  · obtain ⟨p, hexec, code, -⟩ := buildI_isFrame h hfits r.ssn r.rsn
    exact ⟨p, hexec, .ok (by simp [Request.isOversize, hfits]) (by simp [Request.isShort, hop]) code⟩

/-- Every step with a request in flight has the outcome of R200; BUILD_S and BUILD_U cannot fail (R205). -/
theorem step_outcome : ∃ p, step s = .next (s.publish p) ∧ p.HasOutcome s.config r := by
  rw [step_of_ready h]
  rcases op_cases r.op with hop | hop | hop | hop
  · rw [decodeRequest_word_parse hop]
    exact parse_outcome h hop
  · rw [decodeRequest_word_buildI hop]
    exact buildI_outcome h hop
  · rw [decodeRequest_word_buildS hop]
    obtain ⟨p, hexec, code, -⟩ := buildS_isFrame h r.rsn
    exact ⟨p, hexec, .of_cannotFail (by simp [hop]) (by simp [hop]) code⟩
  · rw [decodeRequest_word_buildU hop]
    obtain ⟨p, hexec, code, -⟩ := buildU_isFrame h r.fbits
    exact ⟨p, hexec, .of_cannotFail (by simp [hop]) (by simp [hop]) code⟩

end

/-- Settles O39: each outcome has its one cause, and the two causes exclude each other. -/
theorem exactlyTwoErrorOutcomes : Obligations.ExactlyTwoErrorOutcomes := by
  intro s r h
  obtain ⟨p, hstep, houtcome⟩ := step_outcome h
  refine ⟨p, hstep, ?_⟩
  change (_ ↔ r.isOversize s.config) ∧ (_ ↔ r.isShort) ∧ _
  cases houtcome with
  | oversize cause code zero =>
    have long : ¬ r.isShort := fun hshort => hshort.not_isOversize _ cause
    simp [code, cause, long, zero]
  | short cause code zero => simp [code, cause, cause.not_isOversize, zero]
  | ok fits long code => simp [code, fits, long]

/-- Settles O40: the published response has one of the three outcomes, and the two that are not OK are zero but for
their code. -/
theorem errorResponseIsZeroButForItsCode : Obligations.ErrorResponseIsZeroButForItsCode := by
  intro s t p hstep hflight hp herr
  obtain ⟨r, hr⟩ := Option.isSome_iff_exists.mp hflight
  obtain ⟨hl, -⟩ := step_next_cases hstep
  obtain ⟨q, hq, houtcome⟩ := step_outcome ⟨hl, hr⟩
  cases hstep.symm.trans hq
  cases hp
  obtain ⟨code, zero⟩ := houtcome.of_ne_ok herr
  have ⟨⟨hcls, _⟩, holen, hobuf⟩ := zero
  exact ⟨code, hcls, holen, hobuf, zero⟩

/-! ### The request after an error (R209) -/

/-- A codec step with a request in flight publishes the response that request gets alone. -/
theorem responses_codec_of_ready {s : State} {r : Request} {p : Response} (h : s.ready r)
    (hp : respondAlone s.config r = some p) (es : List Event) :
    responses (.codec :: es) s = p :: responses es (s.publish p) := by
  obtain ⟨q, hstep, hq⟩ := responseIsAFunctionOfRequestAndMaxPayload s r h
  cases hp.symm.trans hq
  obtain ⟨-, hr⟩ := h
  simp [responses_cons (e := .codec) hstep, publishedBy, hr]

/-- A codec step that accepts a request publishes nothing. -/
theorem responses_codec_of_issued {s : State} {r : Request} {rest : List Request} (hl : s.config.legal = true)
    (hr : s.inFlight = none) (hi : s.issued = r :: rest) (es : List Event) :
    responses (.codec :: es) s = responses es (s.accept r rest) := by
  simp [responses_cons (e := .codec) (step_of_issued hl hr hi), publishedBy, hr]

/-- Settles O46: the three steps publish, accept and publish; no response is looked at, so it is no matter that the
first is an error. -/
theorem errorsAreNotSticky : Obligations.ErrorsAreNotSticky := by
  intro s r r' rest p h hi hp _
  have next : ((s.publish p).accept r' rest).ready r' := State.ready_accept h.1 r' rest
  obtain ⟨p', -, hp'⟩ := responseIsAFunctionOfRequestAndMaxPayload _ r' next
  refine ⟨p', hp', ?_⟩
  calc responses [.codec, .codec, .codec] s
    _ = p :: responses [.codec, .codec] (s.publish p) := responses_codec_of_ready h hp _
    _ = p :: responses [.codec] ((s.publish p).accept r' rest) := by
      rw [responses_codec_of_issued (s := s.publish p) h.1 rfl hi]
    _ = [p, p'] := by rw [responses_codec_of_ready next hp', responses]

end Sys2Proof.Machine

/-! PROOFS. The statements of 70_reset_and_hazards.md: what a reset discards and what it keeps, and what a caller that
keeps its duties sees. -/

namespace Sys2Proof.Machine

/-! ### MAX_PAYLOAD (R221) -/

/-- No event writes the configuration. -/
theorem applyEvent_config {e : Event} {s t : State} (h : applyEvent e s = .next t) : t.config = s.config := by
  cases e with
  | issue r => cases h; rfl
  | reset => cases h; rfl
  | codec =>
    obtain ⟨-, ⟨r, -, hexec⟩ | ⟨r, rest, -, -, rfl⟩ | ⟨-, -, rfl⟩⟩ := step_next_cases h
    · obtain ⟨_, p, -, -, rfl⟩ := exec_next hexec
      rfl
    · rfl
    · rfl

/-- Settles O49, by induction on the events. -/
theorem maxPayloadNeverChanges : Obligations.MaxPayloadNeverChanges := by
  intro es
  induction es with
  | nil => intro s t h; cases h; rfl
  | cons e es ih =>
    intro s t h
    obtain ⟨u, hu, ht⟩ := runEvents_cons_next h
    exact (ih u t ht).trans (applyEvent_config hu)

/-! ### Reset (R220) -/

section
open scoped List

/-- Every event, a reset among them, publishes and leaves pending no more than was pending or is issued: a reset
only drops the request in flight, and any other event keeps the account. -/
theorem applyEvent_account_sublist (e : Event) {s : State} (hl : s.config.legal = true) :
    ∃ t, applyEvent e s = .next t ∧ t.config = s.config ∧
      (publishedBy e s t).map some ++ t.pending.map (respondAlone s.config) <+
        (s.pending ++ issuedIn [e]).map (respondAlone s.config) := by
  by_cases he : e = .reset
  · subst he
    refine ⟨s.applyReset, rfl, rfl, ?_⟩
    simp [publishedBy, issuedIn, State.pending]
  · obtain ⟨t, ht, hconfig, haccount⟩ := applyEvent_keeps_account he hl
    exact ⟨t, ht, hconfig, haccount ▸ .refl _⟩

/-- The responses of any events are, in order, some of those of the pending and the issued requests. -/
theorem responses_sublist (es : List Event) {s : State} (hl : s.config.legal = true) :
    (responses es s).map some <+ (s.pending ++ issuedIn es).map (respondAlone s.config) := by
  induction es generalizing s with
  | nil => simp [responses]
  | cons e es ih =>
    obtain ⟨t, ht, hconfig, haccount⟩ := applyEvent_account_sublist e hl
    have later := ih (s := t) (hconfig ▸ hl)
    rw [hconfig] at later
    rw [responses_cons ht, List.map_append]
    calc
      _ <+ (publishedBy e s t).map some ++ (t.pending ++ issuedIn es).map (respondAlone s.config) := later.append_left _
      _ = ((publishedBy e s t).map some ++ t.pending.map (respondAlone s.config)) ++
          (issuedIn es).map (respondAlone s.config) := by rw [List.map_append, List.append_assoc]
      _ <+ (s.pending ++ issuedIn [e]).map (respondAlone s.config) ++ (issuedIn es).map (respondAlone s.config) :=
        haccount.append_right _
      _ = (s.pending ++ issuedIn (e :: es)).map (respondAlone s.config) := by
        rw [issuedIn_cons e es, ← List.map_append, List.append_assoc]

end

/-- Settles O47: a reset overwrites the request in flight and the response, so only the issued requests are pending
after it. -/
theorem resetDiscardsTheRequestInFlight : Obligations.ResetDiscardsTheRequestInFlight := by
  intro s hl
  refine ⟨rfl, rfl, fun _ _ => rfl, fun r rest hi => ?_, fun es => ?_⟩
  · exact step_of_issued (s := s.applyReset) hl rfl hi
  · exact responses_sublist es (s := s.applyReset) hl

/-! ### The caller's duties (R223, R224, R226) -/

section
variable {s : State} {r : Request} (h : s.ready r)
include h

/-- PARSE of an APDU whose length byte is the one of its length has nothing to report of it (R110). -/
theorem parse_lenMismatch_false (hlong : 6 ≤ r.ilen.toNat) (hlen : r.ilen.toNat = (r.ibuf.read 1).toNat + 2) :
    ∃ p, exec (.parse r.ilen) s = .next (s.publish p) ∧ p.status = .ok ∧ p.chk.lenMismatch = false := by
  obtain ⟨p, hexec, -, hspec⟩ := parseSplitsAndClassifies s r r.ilen h
  obtain ⟨⟨hok, -, -, -, -, -, -, -, -, -, -, hmismatch⟩, -⟩ := hspec hlong
  have lengthByte : r.ibuf.header.halen = r.ibuf.read 1 := rfl
  refine ⟨p, hexec, hok, ?_⟩
  rw [← Bool.not_eq_true, hmismatch, lengthByte]
  omega

/-- BUILD_U of one of the six function values writes a control byte that names a function (R133, R160 to R165). -/
theorem buildU_functionOf_ne_unknown {f : Byte} (hf : f ∈ [0x04#8, 0x08#8, 0x10#8, 0x20#8, 0x40#8, 0x80#8]) :
    ∃ p, exec (.buildU f) s = .next (s.publish p) ∧ functionOf (funcOf (p.obuf.read 2)) ≠ .unknown := by
  obtain ⟨p, hexec, -, -, -, -, hread⟩ := buildU_isFrame h f
  obtain ⟨-, -, code⟩ := functionCodeAndItsByte f
  obtain ⟨value, named⟩ := namedFunctionValues f hf
  have c1 : p.obuf.read 2 = funcByte f := hread 2
  refine ⟨p, hexec, ?_⟩
  rwa [c1, code, value]

end

/-- Settles O52: the duties exclude the one cause of ERR_SHORT (O39), fix the length byte of a PARSE, and the function
value of a BUILD_U. -/
theorem dutifulCallerSeesNoLengthError : Obligations.DutifulCallerSeesNoLengthError := by
  intro s r h ⟨parseDuty, buildUDuty⟩
  obtain ⟨p, hstep, -, hshort, -⟩ := exactlyTwoErrorOutcomes s r h
  refine ⟨p, hstep, fun herr => ?_, fun hop => ?_, fun hop => ?_⟩
  · obtain ⟨hop, hn⟩ := hshort.mp herr
    obtain ⟨hlong, -⟩ := parseDuty hop
    omega
  · obtain ⟨hlong, hlen⟩ := parseDuty hop
    obtain ⟨q, hq, hok, hmatch⟩ := parse_lenMismatch_false h hlong hlen
    rw [step_of_ready h, decodeRequest_word_parse hop] at hstep
    cases eq_of_exec hstep hq
    exact ⟨hok, hmatch⟩
  · obtain ⟨q, hq, hnamed⟩ := buildU_functionOf_ne_unknown h (buildUDuty hop)
    rw [step_of_ready h, decodeRequest_word_buildU hop] at hstep
    cases eq_of_exec hstep hq
    exact hnamed

end Sys2Proof.Machine
